-- ==== Sys2Proof/Word.lean ====
section
/-! DEFINITION. The bit-vector types of the CORE and nothing else: every register, memory byte and
immediate is an unsigned number of a fixed width (spec/00_scope.md R11). -/

namespace Sys2Proof

/-- A memory byte, a general register, a timer, the stack pointer, the immediate `nn` (R11, R16). -/
abbrev Byte := BitVec 8

/-- An instruction word, the index register, the program counter, a return address (R8, R11). -/
abbrev Word := BitVec 16

/-- A register selector `x` or `y`, or the 4-bit immediate `n` (R16). -/
abbrev Nibble := BitVec 4

/-- The 12-bit address or immediate `nnn` (R16). -/
abbrev Addr12 := BitVec 12

end Sys2Proof
end

