-- ==== Sys2Proof/Syntax.lean ====
section
/-! DEFINITION. The instructions: one constructor per row of spec/opcode_table.json, in the table's order
(spec/30_encoding.md R109). A constructor carries every bit of its row's word that the row does not fix, the
bits no meaning reads among them (R110): `n` of SE_reg and SNE_reg, `y` of SHR and SHL. The words that select no
row (R111) are no instruction: the decoder rejects them by name and the cycle gives them R310's outcome. -/

namespace Sys2Proof

inductive Instr where
  /-- 00E0 CLS (R231). -/
  | cls
  /-- 00EE RET (R161). -/
  | ret
  /-- 1nnn JP nnn (R163). -/
  | jp (nnn : Addr12)
  /-- 2nnn CALL nnn (R162). -/
  | call (nnn : Addr12)
  /-- 3xnn SE Vx, nn (R164). -/
  | seImm (x : Nibble) (nn : Byte)
  /-- 4xnn SNE Vx, nn (R165). -/
  | sneImm (x : Nibble) (nn : Byte)
  /-- 5xyn SE Vx, Vy (R166); `n` is not decoded (R110). -/
  | seReg (x y n : Nibble)
  /-- 6xnn LD Vx, nn (R192). -/
  | ldImm (x : Nibble) (nn : Byte)
  /-- 7xnn ADD Vx, nn (R193). -/
  | addImm (x : Nibble) (nn : Byte)
  /-- 8xy0 LD Vx, Vy (R194). -/
  | ldReg (x y : Nibble)
  /-- 8xy1 OR Vx, Vy (R195). -/
  | orReg (x y : Nibble)
  /-- 8xy2 AND Vx, Vy (R196). -/
  | andReg (x y : Nibble)
  /-- 8xy3 XOR Vx, Vy (R197). -/
  | xorReg (x y : Nibble)
  /-- 8xy4 ADD Vx, Vy (R201). -/
  | addReg (x y : Nibble)
  /-- 8xy5 SUB Vx, Vy (R202). -/
  | sub (x y : Nibble)
  /-- 8xy6 SHR Vx (R203); `y` is ignored (R110). -/
  | shr (x y : Nibble)
  /-- 8xy7 SUBN Vx, Vy (R204). -/
  | subn (x y : Nibble)
  /-- 8xyE SHL Vx (R205); `y` is ignored (R110). -/
  | shl (x y : Nibble)
  /-- 9xyn SNE Vx, Vy (R167); `n` is not decoded (R110). -/
  | sneReg (x y n : Nibble)
  /-- Annn LD I, nnn (R280). -/
  | ldI (nnn : Addr12)
  /-- Bnnn JP V0, nnn (R168). -/
  | jpV0 (nnn : Addr12)
  /-- Cxnn RND Vx, nn (R210). -/
  | rnd (x : Nibble) (nn : Byte)
  /-- Dxyn DRW Vx, Vy, n (R232). -/
  | drw (x y n : Nibble)
  /-- Ex9E SKP Vx (R250). -/
  | skp (x : Nibble)
  /-- ExA1 SKNP Vx (R251). -/
  | sknp (x : Nibble)
  /-- Fx07 LD Vx, DT (R252). -/
  | ldVxDT (x : Nibble)
  /-- Fx0A LD Vx, K (R253). -/
  | ldVxK (x : Nibble)
  /-- Fx15 LD DT, Vx (R254). -/
  | ldDTVx (x : Nibble)
  /-- Fx18 LD ST, Vx (R255). -/
  | ldSTVx (x : Nibble)
  /-- Fx1E ADD I, Vx (R281). -/
  | addI (x : Nibble)
  /-- Fx29 LD F, Vx (R282). -/
  | ldF (x : Nibble)
  /-- Fx33 LD B, Vx (R283). -/
  | ldB (x : Nibble)
  /-- Fx55 LD [I], Vx (R284). -/
  | ldMemVx (x : Nibble)
  /-- Fx65 LD Vx, [I] (R285). -/
  | ldVxMem (x : Nibble)
  deriving DecidableEq, Repr

end Sys2Proof
end

