-- ==== Sys2Proof/WellFormed.lean ====
section
/-! DEFINITION. Well-formed instructions: the forms the assembler writes. Every operand's range is its type, so
what is left to check is the bits that R110 does not decode, which the assembler writes as zero
(spec/30_encoding.md R112: SHR and SHL encode y = 0, SE Vx, Vy and SNE Vx, Vy encode n = 0). The machine runs the
other forms too: nothing below `Machine` asks for this check. -/

namespace Sys2Proof

/-- The instruction is one the assembler of R112 writes. -/
def Instr.wellFormed : Instr → Bool
  | .cls => true
  | .ret => true
  | .jp _ => true
  | .call _ => true
  | .seImm _ _ => true
  | .sneImm _ _ => true
  | .seReg _ _ n => n == 0
  | .ldImm _ _ => true
  | .addImm _ _ => true
  | .ldReg _ _ => true
  | .orReg _ _ => true
  | .andReg _ _ => true
  | .xorReg _ _ => true
  | .addReg _ _ => true
  | .sub _ _ => true
  | .shr _ y => y == 0
  | .subn _ _ => true
  | .shl _ y => y == 0
  | .sneReg _ _ n => n == 0
  | .ldI _ => true
  | .jpV0 _ => true
  | .rnd _ _ => true
  | .drw _ _ _ => true
  | .skp _ => true
  | .sknp _ => true
  | .ldVxDT _ => true
  | .ldVxK _ => true
  | .ldDTVx _ => true
  | .ldSTVx _ => true
  | .addI _ => true
  | .ldF _ => true
  | .ldB _ => true
  | .ldMemVx _ => true
  | .ldVxMem _ => true

end Sys2Proof
end

