-- ==== Sys2Proof/Decode.lean ====
section
/-! DEFINITION. The decoder (spec/30_encoding.md): the fields of a word (R101), the two-level dispatch (R104 to
R108), total on any word and on any bytes, rejecting by name; then the encoder, from the same opcode map (R109). -/

namespace Sys2Proof

/-- `hi`: the top nibble, `op[15:12]`, the first-level dispatch key (R101, R104). -/
def hiOf (w : Word) : Nibble := w.extractLsb' 12 4

/-- `x`: `op[11:8]` (R101). -/
def xOf (w : Word) : Nibble := w.extractLsb' 8 4

/-- `y`: `op[7:4]` (R101). -/
def yOf (w : Word) : Nibble := w.extractLsb' 4 4

/-- `n`: `op[3:0]` (R101). -/
def nOf (w : Word) : Nibble := w.extractLsb' 0 4

/-- `nn`: `op[7:0]` (R101). -/
def nnOf (w : Word) : Byte := w.extractLsb' 0 8

/-- `nnn`: `op[11:0]` (R101). -/
def nnnOf (w : Word) : Addr12 := w.extractLsb' 0 12

/-- Why bytes are no instruction. -/
inductive Reject where
  /-- Fewer than the two bytes of a word (R100). -/
  | tooShort
  /-- Family 0x0: `nnn` is neither 0x0E0 nor 0x0EE (R108). -/
  | unlisted0
  /-- Family 0x8: `n` has no row (R105). -/
  | unlisted8
  /-- Family 0xE: `nn` has no row (R106). -/
  | unlistedE
  /-- Family 0xF: `nn` has no row (R107). -/
  | unlistedF
  /-- A top nibble with no handler: it cannot occur (R104, spec/90_conflicts.md C4). -/
  | noHandler
  deriving DecidableEq, Repr

/-- Family 0x0, on the whole of `nnn` (R108, C2). -/
def decode0 (w : Word) : Except Reject Instr :=
  match nnnOf w with
  | 0x0E0#12 => .ok .cls
  | 0x0EE#12 => .ok .ret
  | _ => .error .unlisted0

/-- Family 0x8, on `n` (R105). -/
def decode8 (w : Word) : Except Reject Instr :=
  match nOf w with
  | 0x0#4 => .ok (.ldReg (xOf w) (yOf w))
  | 0x1#4 => .ok (.orReg (xOf w) (yOf w))
  | 0x2#4 => .ok (.andReg (xOf w) (yOf w))
  | 0x3#4 => .ok (.xorReg (xOf w) (yOf w))
  | 0x4#4 => .ok (.addReg (xOf w) (yOf w))
  | 0x5#4 => .ok (.sub (xOf w) (yOf w))
  | 0x6#4 => .ok (.shr (xOf w) (yOf w))
  | 0x7#4 => .ok (.subn (xOf w) (yOf w))
  | 0xE#4 => .ok (.shl (xOf w) (yOf w))
  | _ => .error .unlisted8

/-- Family 0xE, on `nn` (R106). -/
def decodeE (w : Word) : Except Reject Instr :=
  match nnOf w with
  | 0x9E#8 => .ok (.skp (xOf w))
  | 0xA1#8 => .ok (.sknp (xOf w))
  | _ => .error .unlistedE

/-- Family 0xF, on `nn` (R107). -/
def decodeF (w : Word) : Except Reject Instr :=
  match nnOf w with
  | 0x07#8 => .ok (.ldVxDT (xOf w))
  | 0x0A#8 => .ok (.ldVxK (xOf w))
  | 0x15#8 => .ok (.ldDTVx (xOf w))
  | 0x18#8 => .ok (.ldSTVx (xOf w))
  | 0x1E#8 => .ok (.addI (xOf w))
  | 0x29#8 => .ok (.ldF (xOf w))
  | 0x33#8 => .ok (.ldB (xOf w))
  | 0x55#8 => .ok (.ldMemVx (xOf w))
  | 0x65#8 => .ok (.ldVxMem (xOf w))
  | _ => .error .unlistedF

/-- The operation a word selects (R103, R104, R109), or the reason it selects none (R111). -/
def decodeWord (w : Word) : Except Reject Instr :=
  match hiOf w with
  | 0x0#4 => decode0 w
  | 0x1#4 => .ok (.jp (nnnOf w))
  | 0x2#4 => .ok (.call (nnnOf w))
  | 0x3#4 => .ok (.seImm (xOf w) (nnOf w))
  | 0x4#4 => .ok (.sneImm (xOf w) (nnOf w))
  | 0x5#4 => .ok (.seReg (xOf w) (yOf w) (nOf w))
  | 0x6#4 => .ok (.ldImm (xOf w) (nnOf w))
  | 0x7#4 => .ok (.addImm (xOf w) (nnOf w))
  | 0x8#4 => decode8 w
  | 0x9#4 => .ok (.sneReg (xOf w) (yOf w) (nOf w))
  | 0xA#4 => .ok (.ldI (nnnOf w))
  | 0xB#4 => .ok (.jpV0 (nnnOf w))
  | 0xC#4 => .ok (.rnd (xOf w) (nnOf w))
  | 0xD#4 => .ok (.drw (xOf w) (yOf w) (nOf w))
  | 0xE#4 => decodeE w
  | 0xF#4 => decodeF w
  | _ => .error .noHandler

/-- A word from its two bytes, the first byte high (R71, R100). -/
def wordOfBytes (b0 b1 : Byte) : Word := b0 ++ b1

/-- The decoder on bytes: one word is two bytes (R100), and the rest of the bytes is handed back. -/
def decode : List Byte → Except Reject (Instr × List Byte)
  | b0 :: b1 :: rest =>
    match decodeWord (wordOfBytes b0 b1) with
    | .ok i => .ok (i, rest)
    | .error e => .error e
  | _ => .error .tooShort

/-- The word of an instruction: the top nibble and the fields of its row, joined from the high bits down (R101,
R109). -/
def encodeWord : Instr → Word
  | .cls => 0x00E0#16
  | .ret => 0x00EE#16
  | .jp nnn => 0x1#4 ++ nnn
  | .call nnn => 0x2#4 ++ nnn
  | .seImm x nn => 0x3#4 ++ x ++ nn
  | .sneImm x nn => 0x4#4 ++ x ++ nn
  | .seReg x y n => 0x5#4 ++ x ++ y ++ n
  | .ldImm x nn => 0x6#4 ++ x ++ nn
  | .addImm x nn => 0x7#4 ++ x ++ nn
  | .ldReg x y => 0x8#4 ++ x ++ y ++ 0x0#4
  | .orReg x y => 0x8#4 ++ x ++ y ++ 0x1#4
  | .andReg x y => 0x8#4 ++ x ++ y ++ 0x2#4
  | .xorReg x y => 0x8#4 ++ x ++ y ++ 0x3#4
  | .addReg x y => 0x8#4 ++ x ++ y ++ 0x4#4
  | .sub x y => 0x8#4 ++ x ++ y ++ 0x5#4
  | .shr x y => 0x8#4 ++ x ++ y ++ 0x6#4
  | .subn x y => 0x8#4 ++ x ++ y ++ 0x7#4
  | .shl x y => 0x8#4 ++ x ++ y ++ 0xE#4
  | .sneReg x y n => 0x9#4 ++ x ++ y ++ n
  | .ldI nnn => 0xA#4 ++ nnn
  | .jpV0 nnn => 0xB#4 ++ nnn
  | .rnd x nn => 0xC#4 ++ x ++ nn
  | .drw x y n => 0xD#4 ++ x ++ y ++ n
  | .skp x => 0xE#4 ++ x ++ 0x9E#8
  | .sknp x => 0xE#4 ++ x ++ 0xA1#8
  | .ldVxDT x => 0xF#4 ++ x ++ 0x07#8
  | .ldVxK x => 0xF#4 ++ x ++ 0x0A#8
  | .ldDTVx x => 0xF#4 ++ x ++ 0x15#8
  | .ldSTVx x => 0xF#4 ++ x ++ 0x18#8
  | .addI x => 0xF#4 ++ x ++ 0x1E#8
  | .ldF x => 0xF#4 ++ x ++ 0x29#8
  | .ldB x => 0xF#4 ++ x ++ 0x33#8
  | .ldMemVx x => 0xF#4 ++ x ++ 0x55#8
  | .ldVxMem x => 0xF#4 ++ x ++ 0x65#8

/-- The high and the low byte of a word, as memory stores them (R71). -/
def bytesOfWord (w : Word) : List Byte := [w.extractLsb' 8 8, w.extractLsb' 0 8]

/-- The bytes of an instruction, in the order memory stores them (R71, R100). -/
def encode (i : Instr) : List Byte := bytesOfWord (encodeWord i)

/-- The `match` and `mask` of an instruction's row in the opcode map (R109). -/
def Instr.row : Instr → Word × Word
  | .cls => (0x00E0, 0xFFFF)
  | .ret => (0x00EE, 0xFFFF)
  | .jp _ => (0x1000, 0xF000)
  | .call _ => (0x2000, 0xF000)
  | .seImm _ _ => (0x3000, 0xF000)
  | .sneImm _ _ => (0x4000, 0xF000)
  | .seReg _ _ _ => (0x5000, 0xF000)
  | .ldImm _ _ => (0x6000, 0xF000)
  | .addImm _ _ => (0x7000, 0xF000)
  | .ldReg _ _ => (0x8000, 0xF00F)
  | .orReg _ _ => (0x8001, 0xF00F)
  | .andReg _ _ => (0x8002, 0xF00F)
  | .xorReg _ _ => (0x8003, 0xF00F)
  | .addReg _ _ => (0x8004, 0xF00F)
  | .sub _ _ => (0x8005, 0xF00F)
  | .shr _ _ => (0x8006, 0xF00F)
  | .subn _ _ => (0x8007, 0xF00F)
  | .shl _ _ => (0x800E, 0xF00F)
  | .sneReg _ _ _ => (0x9000, 0xF000)
  | .ldI _ => (0xA000, 0xF000)
  | .jpV0 _ => (0xB000, 0xF000)
  | .rnd _ _ => (0xC000, 0xF000)
  | .drw _ _ _ => (0xD000, 0xF000)
  | .skp _ => (0xE09E, 0xF0FF)
  | .sknp _ => (0xE0A1, 0xF0FF)
  | .ldVxDT _ => (0xF007, 0xF0FF)
  | .ldVxK _ => (0xF00A, 0xF0FF)
  | .ldDTVx _ => (0xF015, 0xF0FF)
  | .ldSTVx _ => (0xF018, 0xF0FF)
  | .addI _ => (0xF01E, 0xF0FF)
  | .ldF _ => (0xF029, 0xF0FF)
  | .ldB _ => (0xF033, 0xF0FF)
  | .ldMemVx _ => (0xF055, 0xF0FF)
  | .ldVxMem _ => (0xF065, 0xF0FF)

/-- The instruction the decoder reads from a word numbered as spec/opcode_table.json numbers it: the word is laid
out as memory stores it, high byte first (R71), and handed to `decode`. -/
def decodeTableWord (nbits w : Nat) : Option Instr :=
  match decode (bytesOfWord (BitVec.ofNat 16 (w % 2 ^ nbits))) with
  | .ok (i, _) => some i
  | .error _ => none

end Sys2Proof
end

