-- ==== Sys2Proof/Config.lean ====
section
/-! DEFINITION. What is fixed for the machine (spec/00_scope.md R8), the parameters of a reset that the spec
leaves OPEN (R9), and the free values of the outside world (R63, R64): constants with no body. -/

namespace Sys2Proof.Config

/-- MEM_SIZE: 4096 bytes, addresses 0x000 to 0xFFF (R8). -/
abbrev memSize : Nat := 4096

/-- PROG_BASE: the load address of the program and the reset value of pc (R8, R77). -/
abbrev progBase : Nat := 0x200

/-- PROG_MAX: the longest program image, 0xE00 bytes (R8). -/
abbrev progMax : Nat := 0xE00

/-- The glyph table's length: 16 glyphs of 5 bytes at 0x000 to 0x04F (R8). -/
abbrev fontSize : Nat := 80

/-- STACK_DEPTH: 16 return addresses (R8). -/
abbrev stackDepth : Nat := 16

/-- The OPEN parameters of `reset(PROG)` (R9, decisions D12 to D15): the values the spec does not give. -/
structure ResetParams where
  /-- RESET_V: V0 to VF after reset (D12). -/
  V : Vector Byte 16
  /-- RESET_I: I after reset (D12). -/
  I : Word
  /-- RESET_STACK: the stack entries after reset (D13). -/
  S : Vector Word 16
  /-- FONT: the glyph table (D15). -/
  font : Vector Byte 80
  /-- MEM_FILL: memory outside the glyph table and the program (D14). -/
  memFill : Nat → Byte

/-- The random source: draw number `n` of the `rnd` input when the environment has not written the byte into
State's `rndFeed` (R63, D18: a free draw, with no law). A free value: no body, log entry 5. -/
opaque freeRnd : Nat → Byte

/-- The display oracle: answer number `n` to a getPixel whose answer neither the retained pixels nor State's
`pixelFeed` fix (R64, D23: any value). A free value: no body, log entry 6. -/
opaque freePixel : Nat → Bool

end Sys2Proof.Config
end

