-- ==== Sys2Proof/Machine/State.lean ====
section
/-! DEFINITION. The state of the CORE as plain data (spec/10_state.md), the outside world's side of its interface
(R60 to R66) beside it, the reasons a step can stop, and the state after reset (R47, R340). -/

namespace Sys2Proof.Machine

/-- `run` (R41). -/
inductive RunState where
  /-- Cycles execute on each step strobe. -/
  | running
  /-- The program-size halting condition held. -/
  | halted
  /-- A fault was raised. -/
  | faulted
  /-- Reset was given an image longer than PROG_MAX. -/
  | rejected
  deriving DecidableEq, Repr

/-- The faults of the CORE (R312). Each is TAKEN, as R316 says: a next state with `run` Faulted. -/
inductive Cause where
  /-- 2nnn with sp = 16. -/
  | stackOverflow
  /-- 00EE with sp = 0. -/
  | stackUnderflow
  /-- Dxyn, Fx33, Fx55, Fx65 with an address at or above 4096. -/
  | memoryRange
  /-- The fetch with pc + 1 at or above 4096. -/
  | fetchRange
  /-- Ex9E, ExA1 with V[x] above 0xF. -/
  | keyRange
  deriving DecidableEq, Repr

/-- An output event or a display-port transaction (R64 to R66, R145). -/
inductive Event where
  /-- display.clear(). -/
  | clear
  /-- display.setPixel(x, y, on). -/
  | setPixel (x y : Nat) (on : Bool)
  /-- display.getPixel(x, y) and the answer it returned. -/
  | getPixel (x y : Nat) (answer : Bool)
  /-- display.present(). -/
  | present
  /-- The audible alert of one sound-timer decrement (R65). -/
  | beep
  /-- The unimplemented-opcode diagnostic with the fetched word (R66). -/
  | unimpl (op : Word)
  deriving DecidableEq, Repr

/-- The memory store: the cells that differ from what an unlisted address reads as (`Memory.unlisted`), addresses
strictly rising (`Memory.wf`). -/
abbrev Memory := List Host.Cell

/-- The outside world's side of the interface (R60 to R66): the model's own fields, not CORE state (R46). What the
environment will present is written here before it is read; nothing in it is changed by a reset (R342). -/
structure Interface where
  /-- The level on the keys port: bit k is 1 when key k is pressed (R62). -/
  keys : BitVec 16
  /-- The levels the keys port shows in the coming cycles; when it is empty the level holds (R62, log entry 8). -/
  keyFeed : List (BitVec 16)
  /-- The bytes the rnd input delivers next; when it is empty the byte is free (R63, log entry 5). -/
  rndFeed : List Byte
  /-- How many free bytes were drawn (log entry 5). -/
  rndDraws : Nat
  /-- The width and height of the display surface, if known (R64, N22, log entry 6). -/
  surface : Option (Nat × Nat)
  /-- The answers to the coming oracle queries; when it is empty the answer is free (R64, log entry 6). -/
  pixelFeed : List Bool
  /-- How many free answers were given (log entry 6). -/
  pixelDraws : Nat
  /-- The events emitted so far, NEWEST FIRST (R145, log entry 9). -/
  events : List Event
  deriving DecidableEq, Repr

/-- The machine (R30 to R47). -/
structure State where
  /-- V0 to VF (R30). -/
  V : Vector Byte 16
  /-- The index register (R33). -/
  I : Word
  /-- The program counter (R34). -/
  pc : Word
  /-- The stack pointer: the number of return addresses on the stack (R35). -/
  sp : Byte
  /-- The stack: entry S[k] of R36 is element k - 1. -/
  S : Vector Word 16
  /-- The delay timer (R37). -/
  DT : Byte
  /-- The sound timer (R38). -/
  ST : Byte
  /-- The memory store (R39). -/
  M : Memory
  /-- PROG_SIZE, 0 to 0xE00 (R40). -/
  progSize : Fin (Config.progMax + 1)
  /-- The run state (R41). -/
  run : RunState
  /-- FAULT_CAUSE (R42, R313). -/
  faultCause : BitVec 3
  /-- FAULT_PC (R42). -/
  faultPc : Word
  /-- FAULT_OP (R42). -/
  faultOp : Word
  /-- The word fetched in this cycle; 0 between cycles (R44, log entry 7). -/
  op : Word
  /-- The key sample of this cycle; 0 between cycles (R45, log entry 7). -/
  K : BitVec 16
  /-- The outside world's side of the interface. -/
  io : Interface
  deriving DecidableEq, Repr

/-- Why the model stops a step. The CORE's own faults are not among them: they are taken (`Cause`). -/
inductive Fault where
  /-- CALL or RET names a stack entry that does not exist: sp above 16 (R35: "Its legal values are 0 to 16"). Raised
  by `execCall` and `execRet` only, in states no run reaches (log entry 10). Safe: the model stops. -/
  | stackEntryMissing
  deriving DecidableEq, Repr

/-- Why a step has no meaning. -/
inductive Refusal where
  /-- An arm of `exec` that has no meaning yet. Raised by no arm: every instruction has its meaning. Safe. -/
  | notModelled (mnemonic : String)
  deriving DecidableEq, Repr

/-- What the outside world presents in `State.reset`: no key held, nothing fed, a display of unknown size and
contents, nothing emitted (DESIGN CHOICE, log entries 5, 6, 8, 9). -/
def Interface.initial : Interface where
  keys := 0
  keyFeed := []
  rndFeed := []
  rndDraws := 0
  surface := none
  pixelFeed := []
  pixelDraws := 0
  events := []

/-- The machine right after `reset(PROG)` with the empty image (R47, R340, log entry 4). V, I and S take the
model's choice of the OPEN parameters (DESIGN CHOICE, log entry 1); memory lists nothing (log entries 2, 3). -/
def State.reset : State where
  V := Vector.replicate 16 0
  I := 0
  pc := 0x200
  sp := 0
  S := Vector.replicate 16 0
  DT := 0
  ST := 0
  M := []
  progSize := 0
  run := .running
  faultCause := 0
  faultPc := 0
  faultOp := 0
  op := 0
  K := 0
  io := Interface.initial

end Sys2Proof.Machine
end

