-- ==== Sys2Proof/Machine/Ops.lean ====
section
/-! DEFINITION. The operations every meaning shares: the memory store (R70 to R79), the registers (R30 to R38), the
return-address stack (R35, R36), and taking a fault (R316). No instruction returns from a fault (R317): what leaves
Faulted is `resetTo` (Machine/Reset.lean). -/

namespace Sys2Proof.Machine

/-- What a step or a meaning answers. -/
abbrev Result := Host.Outcome State Fault Refusal

/-! ## Memory -/

/-- FONT's default: sixteen glyphs of five bytes, glyph d at d × 5 (R76, D15; PRESUMED, log entry 3). -/
def fontBytes : List Byte :=
  [0xF0, 0x90, 0x90, 0x90, 0xF0] ++ [0x20, 0x60, 0x20, 0x20, 0x70] ++
  [0xF0, 0x10, 0xF0, 0x80, 0xF0] ++ [0xF0, 0x10, 0xF0, 0x10, 0xF0] ++
  [0x90, 0x90, 0xF0, 0x10, 0x10] ++ [0xF0, 0x80, 0xF0, 0x10, 0xF0] ++
  [0xF0, 0x80, 0xF0, 0x90, 0xF0] ++ [0xF0, 0x10, 0x20, 0x40, 0x40] ++
  [0xF0, 0x90, 0xF0, 0x90, 0xF0] ++ [0xF0, 0x90, 0xF0, 0x10, 0xF0] ++
  [0xF0, 0x90, 0xF0, 0x90, 0x90] ++ [0xE0, 0x90, 0xE0, 0x90, 0xE0] ++
  [0xF0, 0x80, 0x80, 0x80, 0xF0] ++ [0xE0, 0x90, 0x90, 0x90, 0xE0] ++
  [0xF0, 0x80, 0xF0, 0x80, 0xF0] ++ [0xF0, 0x80, 0xF0, 0x80, 0x80]

/-- MEM_FILL: the model's choice for memory outside the glyph table and the image (D14; DESIGN CHOICE, log entry 2). -/
def memFill : Byte := 0

/-- What an address that memory does not list reads as: the glyph table at 0x000 to 0x04F, MEM_FILL above it
(R47, R76). -/
def Memory.unlisted (a : Nat) : Byte := fontBytes.getD a memFill

/-- MemRead(a, 1) (R13, R79). -/
def Memory.read : Memory → Nat → Byte
  | [], a => Memory.unlisted a
  | (k, b) :: rest, a => if a = k then b else Memory.read rest a

/-- The cells but those at `a`. -/
def Memory.erase : Memory → Nat → Memory
  | [], _ => []
  | (k, b) :: rest, a => if a = k then Memory.erase rest a else (k, b) :: Memory.erase rest a

/-- A cell put before the first one at a higher address. -/
def Memory.insert : Memory → Nat → Byte → Memory
  | [], a, v => [(a, v)]
  | (k, b) :: rest, a, v => if a < k then (a, v) :: (k, b) :: rest else (k, b) :: Memory.insert rest a v

/-- MemWrite(a, 1, v) (R13), in canonical form: a byte that reads as the unlisted one is not listed. -/
def Memory.write (m : Memory) (a : Nat) (v : Byte) : Memory :=
  if v = Memory.unlisted a then Memory.erase m a else Memory.insert (Memory.erase m a) a v

/-- Successive bytes written from address `a` up, in ascending order (R73). -/
def Memory.writeAll : Memory → Nat → List Byte → Memory
  | m, _, [] => m
  | m, a, v :: vs => Memory.writeAll (Memory.write m a v) (a + 1) vs

/-- The bytes at `a`, `a + 1`, … , `count` of them, in ascending order (R73). -/
def Memory.readAll (m : Memory) (a count : Nat) : List Byte :=
  (List.range count).map fun k => m.read (a + k)

/-- The memory whose byte at each address below 4096 is `f`'s (R340's first loop). -/
def Memory.ofFun (f : Nat → Byte) : Memory :=
  ((List.range Config.memSize).filter fun a => f a ≠ Memory.unlisted a).map fun a => (a, f a)

/-- The canonical form from address `lo` up: addresses strictly rising, all below 4096, no cell equal to what an
unlisted address reads as. -/
def Memory.wfFrom : Nat → Memory → Bool
  | _, [] => true
  | lo, (k, b) :: rest =>
    decide (lo ≤ k) && decide (k < Config.memSize) && decide (b ≠ Memory.unlisted k) && Memory.wfFrom (k + 1) rest

/-- The canonical form of a memory. -/
def Memory.wf (m : Memory) : Bool := Memory.wfFrom 0 m

/-! ## Registers -/

/-- `V[x]` (R30). -/
def State.getV (s : State) (x : Nibble) : Byte := s.V[x.toNat]'(x.isLt)

/-- `V[x] <- v` (R30). -/
def State.setV (s : State) (x : Nibble) (v : Byte) : State := { s with V := s.V.set x.toNat v x.isLt }

/-- The flag register VF is V[0xF] (R31). -/
def VF : Nibble := 0xF#4

/-- `V[k], V[k+1], …` written from a list of bytes, in ascending order. -/
def State.setVsFrom : State → Nat → List Byte → State
  | s, _, [] => s
  | s, k, v :: vs => State.setVsFrom (s.setV (BitVec.ofNat 4 k) v) (k + 1) vs

/-- `I <- v` (R33). -/
def State.setI (s : State) (v : Word) : State := { s with I := v }

/-- `pc <- target` (R34). -/
def State.setPc (s : State) (target : Word) : State := { s with pc := target }

/-- `pc <- (pc + 2) mod 2^16`: a skip passes over one instruction word (R160). -/
def State.skipIf (c : Bool) (s : State) : State := if c then s.setPc (s.pc + 2) else s

/-- `DT <- v` (R37). -/
def State.setDT (s : State) (v : Byte) : State := { s with DT := v }

/-- `ST <- v` (R38). -/
def State.setST (s : State) (v : Byte) : State := { s with ST := v }

/-- The memory store replaced. -/
def State.setM (s : State) (m : Memory) : State := { s with M := m }

/-- The outside world's side replaced. -/
def State.setIo (s : State) (io : Interface) : State := { s with io := io }

/-! ## The return-address stack -/

/-- `S[k]`, for k in 1 to 16 (R36); no other entry exists. -/
def State.stackEntry (s : State) (k : Nat) : Option Word :=
  if h : 1 ≤ k ∧ k ≤ 16 then some (s.S[k - 1]'(by omega)) else none

/-- `sp <- sp + 1; S[sp] <- v` (R162), if that entry exists. -/
def State.push (s : State) (v : Word) : Option State :=
  if h : 1 ≤ (s.sp + 1).toNat ∧ (s.sp + 1).toNat ≤ 16 then
    some { s with sp := s.sp + 1, S := s.S.set ((s.sp + 1).toNat - 1) v (by omega) }
  else none

/-- `pc <- S[sp]; sp <- sp − 1` (R161), if that entry exists. -/
def State.pop (s : State) : Option State :=
  match s.stackEntry s.sp.toNat with
  | some v => some { s with pc := v, sp := s.sp - 1 }
  | none => none

/-! ## Taking a fault -/

/-- The cause codes (R313). -/
def Cause.code : Cause → BitVec 3
  | .stackOverflow => 1
  | .stackUnderflow => 2
  | .memoryRange => 3
  | .fetchRange => 4
  | .keyRange => 5

/-- The run-state encoding (R41). -/
def RunState.code : RunState → BitVec 2
  | .running => 0
  | .halted => 1
  | .faulted => 2
  | .rejected => 3

/-- `pc_i`, the address the instruction of this cycle was fetched from: pc − 2 during a handler (R17, R34). -/
def State.pcI (s : State) : Word := s.pc - 2

/-- Fault entry (R316), the ONE way a fault is taken: pc back to `pc_i`, run Faulted, cause, pc and word recorded. -/
def State.takeFault (s : State) (c : Cause) (pci op : Word) : State :=
  { s with pc := pci, run := .faulted, faultCause := c.code, faultPc := pci, faultOp := op }

/-- `raise F(pc_i)` by a handler (R13, R316): the word recorded is the one this cycle fetched. -/
def State.raise (s : State) (c : Cause) : State := s.takeFault c s.pcI s.op

/-- Every address `base + k`, k below `count`, lies in memory (R74: naturals, no wrap). -/
def rangeOk (base count : Nat) : Bool := count == 0 || decide (base + count ≤ Config.memSize)

/-- An instruction's range check, ahead of any effect (R74, D8): MemoryRange, or the effect. -/
def checkRange (base count : Nat) (s : State) (effect : State → State) : Result :=
  if rangeOk base count then .next (effect s) else .next (s.raise .memoryRange)

end Sys2Proof.Machine
end

