-- ==== Sys2Proof/Machine/Flags.lean ====
section
/-! DEFINITION. The flag computations: each value VF can take as a flag (R31, R191), and the order the five
flag-writing operations share (R200). -/

namespace Sys2Proof.Machine

/-- A flag's byte: 1 or 0. -/
def flagByte (c : Bool) : Byte := if c then 1 else 0

/-- Carry of 8xy4: a + b > 255 (R201). -/
def carryFlag (a b : Byte) : Byte := flagByte (decide (a.toNat + b.toNat > 255))

/-- Strict not-borrow of 8xy5: a > b (R191, R202). -/
def notBorrowFlag (a b : Byte) : Byte := flagByte (decide (a.toNat > b.toNat))

/-- Strict not-borrow of 8xy7: b > a (R204). -/
def notBorrowRevFlag (a b : Byte) : Byte := flagByte (decide (b.toNat > a.toNat))

/-- The bit 8xy6 shifts out: a & 1 (R203). -/
def shiftedOutRight (a : Byte) : Byte := a &&& 1

/-- The bit 8xyE shifts out: a >> 7 (R205). -/
def shiftedOutLeft (a : Byte) : Byte := a >>> 7

/-- The order of R200: VF is written from the operands, then the result is computed from the registers as they
stand after that write, so an operand that is VF is read anew (D26). -/
def flagThenResult (flag result : Byte → Byte → Byte) (x y : Nibble) (s : State) : State :=
  let s1 := s.setV VF (flag (s.getV x) (s.getV y))
  s1.setV x (result (s1.getV x) (s1.getV y))

end Sys2Proof.Machine
end

