-- ==== Sys2Proof/Machine/Interface.lean ====
section
/-! DEFINITION. The operations on CORE's interface (R60 to R66): emitting an event, the key sample, the random byte,
and the display port with its oracle. None of them touches CORE state but `K`. -/

namespace Sys2Proof.Machine

/-- `emit e` (R13): an output event, which has no effect on CORE state. -/
def State.emit (s : State) (e : Event) : State := s.setIo { s.io with events := e :: s.io.events }

/-- The level on the keys port as this cycle finds it: the next one fed, or the level as it stands (R62). -/
def Interface.nextKeys (io : Interface) : BitVec 16 :=
  match io.keyFeed with
  | [] => io.keys
  | k :: _ => k

/-- `K <- keys` (R132): one sample a cycle. -/
def State.sampleKeys (s : State) : State :=
  { s with K := s.io.nextKeys
           io := { s.io with keys := s.io.nextKeys, keyFeed := s.io.keyFeed.tail } }

/-- The byte the rnd input delivers next: the one fed, or a free one (R63, D18). -/
def Interface.nextRnd (io : Interface) : Byte :=
  match io.rndFeed with
  | [] => Config.freeRnd io.rndDraws
  | r :: _ => r

/-- The rnd input after it delivered a byte. -/
def Interface.afterRnd (io : Interface) : Interface :=
  match io.rndFeed with
  | [] => { io with rndDraws := io.rndDraws + 1 }
  | _ :: rest => { io with rndFeed := rest }

/-- The pixel lies on the surface, as far as the surface's size is known (R64, N22). -/
def onSurface (size : Option (Nat × Nat)) (x y : Nat) : Bool :=
  match size with
  | some (w, h) => decide (x < w) && decide (y < h)
  | none => false

/-- The value last written to a pixel: by its newest setPixel, or blank by a later clear (R64); none if neither
happened. Only a setPixel of the very same coordinates counts: R64 and R230 leave it to the display whether one that is
out of range is a no-op or a clamp, and the model takes the no-op (DESIGN CHOICE, log entry 13). -/
def lastPixel (x y : Nat) : List Event → Option Bool
  | [] => none
  | .clear :: _ => some false
  | .setPixel x' y' on :: rest => if x = x' ∧ y = y' then some on else lastPixel x y rest
  | .getPixel _ _ _ :: rest => lastPixel x y rest
  | .present :: rest => lastPixel x y rest
  | .beep :: rest => lastPixel x y rest
  | .unimpl _ :: rest => lastPixel x y rest

/-- What the display retains of a pixel: only in-range pixels keep what was written (R64, D23). An out-of-range setPixel
leaves what is kept of every pixel as it was: the no-op, where R64 and R230 allow a clamp too (DESIGN CHOICE, log
entry 13). -/
def Interface.kept (io : Interface) (x y : Nat) : Option Bool :=
  if onSurface io.surface x y then lastPixel x y io.events else none

/-- getPixel's answer: the retained value, or the oracle's, fed or free (R64, U8, U9). -/
def Interface.pixelAnswer (io : Interface) (x y : Nat) : Bool :=
  match io.kept x y with
  | some b => b
  | none =>
    match io.pixelFeed with
    | [] => Config.freePixel io.pixelDraws
    | b :: _ => b

/-- The display's side after it answered. -/
def Interface.afterPixel (io : Interface) (x y : Nat) : Interface :=
  match io.kept x y with
  | some _ => io
  | none =>
    match io.pixelFeed with
    | [] => { io with pixelDraws := io.pixelDraws + 1 }
    | _ :: rest => { io with pixelFeed := rest }

/-- `display.getPixel(x, y)` with its answer recorded (R64, R230). -/
def State.getPixel (s : State) (x y : Nat) : State :=
  (s.setIo (s.io.afterPixel x y)).emit (.getPixel x y (s.io.pixelAnswer x y))

/-- `display.setPixel(x, y, on)` (R64). -/
def State.setPixel (s : State) (x y : Nat) (on : Bool) : State := s.emit (.setPixel x y on)

end Sys2Proof.Machine
end

