-- ==== Sys2Proof/Machine/Alu.lean ====
section
/-! DEFINITION. Register loads, arithmetic, logic, shifts and random (spec/42_alu.md). Results are modulo 256
(R190). -/

namespace Sys2Proof.Machine

/-- LD Vx, nn (R192). -/
def execLdImm (x : Nibble) (nn : Byte) (s : State) : Result := .next (s.setV x nn)

/-- ADD Vx, nn (R193): no flag. -/
def execAddImm (x : Nibble) (nn : Byte) (s : State) : Result := .next (s.setV x (s.getV x + nn))

/-- LD Vx, Vy (R194). -/
def execLdReg (x y : Nibble) (s : State) : Result := .next (s.setV x (s.getV y))

/-- OR Vx, Vy (R195). -/
def execOrReg (x y : Nibble) (s : State) : Result := .next (s.setV x (s.getV x ||| s.getV y))

/-- AND Vx, Vy (R196). -/
def execAndReg (x y : Nibble) (s : State) : Result := .next (s.setV x (s.getV x &&& s.getV y))

/-- XOR Vx, Vy (R197). -/
def execXorReg (x y : Nibble) (s : State) : Result := .next (s.setV x (s.getV x ^^^ s.getV y))

/-- ADD Vx, Vy (R201). -/
def execAddReg (x y : Nibble) (s : State) : Result := .next (flagThenResult carryFlag (· + ·) x y s)

/-- SUB Vx, Vy (R202). -/
def execSub (x y : Nibble) (s : State) : Result := .next (flagThenResult notBorrowFlag (· - ·) x y s)

/-- SHR Vx (R203): in place, `y` is not read. -/
def execShr (x : Nibble) (s : State) : Result :=
  .next (flagThenResult (fun a _ => shiftedOutRight a) (fun a _ => a >>> 1) x x s)

/-- SUBN Vx, Vy (R204). -/
def execSubn (x y : Nibble) (s : State) : Result :=
  .next (flagThenResult notBorrowRevFlag (fun a b => b - a) x y s)

/-- SHL Vx (R205): in place, `y` is not read. -/
def execShl (x : Nibble) (s : State) : Result :=
  .next (flagThenResult (fun a _ => shiftedOutLeft a) (fun a _ => a <<< 1) x x s)

/-- RND Vx, nn (R210): one fresh byte from the rnd input. -/
def execRnd (x : Nibble) (nn : Byte) (s : State) : Result :=
  .next ((s.setIo s.io.afterRnd).setV x (s.io.nextRnd &&& nn))

end Sys2Proof.Machine
end

