-- ==== Sys2Proof/Machine/Operands.lean ====
section
/-! DEFINITION. The operand forms (spec/30_encoding.md R102, spec/45_index_memory.md): every immediate is unsigned
and zero-extended, `x` and `y` select registers directly, and the one addressing mode is I + k. -/

namespace Sys2Proof.Machine

/-- `zext_16(nnn)`: a 12-bit address (R102). -/
def addrOf (nnn : Addr12) : Word := nnn.setWidth 16

/-- `zext_16(v)` of a byte (R11). -/
def zext16 (v : Byte) : Word := v.setWidth 16

/-- The effective address of element 0, as a natural; element k is at `base + k` (R74, spec/45_index_memory.md). -/
def State.base (s : State) : Nat := s.I.toNat

/-- The key index a register holds: none when it is above 0xF (R250, D10). -/
def keyIndex (v : Byte) : Option Nibble := if v.toNat ≤ 0xF then some (v.setWidth 4) else none

/-- `K[k]` in the cycle's sample (R45). -/
def State.keyHeld (s : State) (k : Nibble) : Bool := s.K.getLsbD k.toNat

/-- The key an ascending scan of the sample leaves, if any is held: the last write wins, the highest index
(R253). -/
def State.scanKeys (s : State) : Option Nibble :=
  (List.range 16).foldl (fun found k => if s.K.getLsbD k then some (BitVec.ofNat 4 k) else found) none

/-- `V[0]` to `V[x]`, the last included (R284). -/
def State.regsTo (s : State) (x : Nibble) : List Byte :=
  (List.range (x.toNat + 1)).map fun k => s.getV (BitVec.ofNat 4 k)

/-- Hundreds, tens and units of a byte (R283). -/
def bcdDigits (v : Byte) : List Byte :=
  [BitVec.ofNat 8 (v.toNat / 100), BitVec.ofNat 8 (v.toNat / 10 % 10), BitVec.ofNat 8 (v.toNat % 10)]

end Sys2Proof.Machine
end

