-- ==== Sys2Proof/Machine/Display.lean ====
section
/-! DEFINITION. Display operations (spec/43_display.md): the display is reached through its port only. -/

namespace Sys2Proof.Machine

/-- CLS (R231): clear, then present the empty frame (D30). -/
def execCls (s : State) : Result := .next ((s.emit .clear).emit .present)

/-- The columns 0 to 7 of a sprite row whose bit is set, left to right: column j is bit 7 − j (R233). -/
def rowColumns (row : Byte) : List Nat := (List.range 8).filter fun j => row.getLsbD (7 - j)

/-- The pixels a sprite's set bits name, rows in ascending order, columns left to right: natural coordinates, not
wrapped (R232). -/
def spritePixels (m : Memory) (base n cx cy : Nat) : List (Nat × Nat) :=
  (List.range n).flatMap fun i => (rowColumns (m.read (base + i))).map fun j => (cx + j, cy + i)

/-- One set bit of a sprite (R232): getPixel, setPixel of the opposite, VF set to 1 if the pixel was on. -/
def drawPixel (p : Nat × Nat) (s : State) : State :=
  let old := s.io.pixelAnswer p.1 p.2
  let t := (s.getPixel p.1 p.2).setPixel p.1 p.2 (!old)
  t.setV VF (if old then 1 else t.getV VF)

/-- The pixels of a sprite, one after the other. -/
def drawPixels (ps : List (Nat × Nat)) (s : State) : State := ps.foldl (fun t p => drawPixel p t) s

/-- DRW Vx, Vy, n (R232): the range check; the coordinates are latched before VF is cleared (D17); then the set bits
of the rows, and one present. -/
def execDrw (x y n : Nibble) (s : State) : Result :=
  checkRange s.base n.toNat s fun s =>
    (drawPixels (spritePixels s.M s.base n.toNat (s.getV x).toNat (s.getV y).toNat) (s.setV VF 0)).emit .present

end Sys2Proof.Machine
end

