-- ==== Sys2Proof/Machine/Flow.lean ====
section
/-! DEFINITION. Control transfer (spec/41_flow.md). Every meaning starts after the fetch, with pc = pc_i + 2. -/

namespace Sys2Proof.Machine

/-- RET (R161): the fault test, then `pc <- S[sp]; sp <- sp − 1`. -/
def execRet (s : State) : Result :=
  if s.sp = 0 then .next (s.raise .stackUnderflow)
  else
    match s.pop with
    | some t => .next t
    | none => .fault .stackEntryMissing

/-- JP nnn (R163). -/
def execJp (nnn : Addr12) (s : State) : Result := .next (s.setPc (addrOf nnn))

/-- CALL nnn (R162): the fault test, then `sp <- sp + 1; S[sp] <- pc; pc <- nnn`. -/
def execCall (nnn : Addr12) (s : State) : Result :=
  if s.sp = 16 then .next (s.raise .stackOverflow)
  else
    match s.push s.pc with
    | some t => .next (t.setPc (addrOf nnn))
    | none => .fault .stackEntryMissing

/-- SE Vx, nn (R164). -/
def execSeImm (x : Nibble) (nn : Byte) (s : State) : Result := .next (s.skipIf (s.getV x == nn))

/-- SNE Vx, nn (R165). -/
def execSneImm (x : Nibble) (nn : Byte) (s : State) : Result := .next (s.skipIf (s.getV x != nn))

/-- SE Vx, Vy (R166); the low nibble is not decoded (R110). -/
def execSeReg (x y : Nibble) (s : State) : Result := .next (s.skipIf (s.getV x == s.getV y))

/-- SNE Vx, Vy (R167); the low nibble is not decoded (R110). -/
def execSneReg (x y : Nibble) (s : State) : Result := .next (s.skipIf (s.getV x != s.getV y))

/-- JP V0, nnn (R168). -/
def execJpV0 (nnn : Addr12) (s : State) : Result := .next (s.setPc (addrOf nnn + zext16 (s.getV 0)))

end Sys2Proof.Machine
end

