-- ==== Sys2Proof/Machine/IndexMemory.lean ====
section
/-! DEFINITION. The index register and the memory transfers (spec/45_index_memory.md): I is never changed by a load
or a store (D27). -/

namespace Sys2Proof.Machine

/-- LD I, nnn (R280). -/
def execLdI (nnn : Addr12) (s : State) : Result := .next (s.setI (addrOf nnn))

/-- ADD I, Vx (R281): modulo 2^16, no flag. -/
def execAddI (x : Nibble) (s : State) : Result := .next (s.setI (s.I + zext16 (s.getV x)))

/-- LD F, Vx (R282): the full byte times 5. -/
def execLdF (x : Nibble) (s : State) : Result := .next (s.setI (zext16 (s.getV x) * 5))

/-- LD B, Vx (R283): hundreds, tens, units at I, I + 1, I + 2. -/
def execLdB (x : Nibble) (s : State) : Result :=
  checkRange s.base 3 s fun s => s.setM (Memory.writeAll s.M s.base (bcdDigits (s.getV x)))

/-- LD [I], Vx (R284): V[0] to V[x] at I to I + x. -/
def execLdMemVx (x : Nibble) (s : State) : Result :=
  checkRange s.base (x.toNat + 1) s fun s => s.setM (Memory.writeAll s.M s.base (s.regsTo x))

/-- LD Vx, [I] (R285): I to I + x into V[0] to V[x]. -/
def execLdVxMem (x : Nibble) (s : State) : Result :=
  checkRange s.base (x.toNat + 1) s fun s => s.setVsFrom 0 (Memory.readAll s.M s.base (x.toNat + 1))

end Sys2Proof.Machine
end

