-- ==== Sys2Proof/Machine/KeysTimers.lean ====
section
/-! DEFINITION. Key tests, the key wait and the timers (spec/44_keys_timers.md). The decay that follows in the same
cycle is the cycle's (Machine/Cycle.lean). -/

namespace Sys2Proof.Machine

/-- SKP Vx (R250): KeyRange above 0xF, else skip if the key is held in the sample. -/
def execSkp (x : Nibble) (s : State) : Result :=
  match keyIndex (s.getV x) with
  | none => .next (s.raise .keyRange)
  | some k => .next (s.skipIf (s.keyHeld k))

/-- SKNP Vx (R251). -/
def execSknp (x : Nibble) (s : State) : Result :=
  match keyIndex (s.getV x) with
  | none => .next (s.raise .keyRange)
  | some k => .next (s.skipIf (!s.keyHeld k))

/-- LD Vx, DT (R252). -/
def execLdVxDT (x : Nibble) (s : State) : Result := .next (s.setV x s.DT)

/-- LD Vx, K (R253): the key found by the scan, or the pc rewound by 2 so that the instruction runs again. -/
def execLdVxK (x : Nibble) (s : State) : Result :=
  match s.scanKeys with
  | some k => .next (s.setV x (k.setWidth 8))
  | none => .next (s.setPc (s.pc - 2))

/-- LD DT, Vx (R254). -/
def execLdDTVx (x : Nibble) (s : State) : Result := .next (s.setDT (s.getV x))

/-- LD ST, Vx (R255). -/
def execLdSTVx (x : Nibble) (s : State) : Result := .next (s.setST (s.getV x))

end Sys2Proof.Machine
end

