-- ==== Sys2Proof/Machine/Cycle.lean ====
section
/-! DEFINITION. One cycle (spec/40_execution_cycle.md R130): the halting test, the key sample, the fetch, the pc
advance, the dispatch, and the decay of the two timers. -/

namespace Sys2Proof.Machine

/-- The halting test (R131): pc at or past the end of the image, as naturals. -/
def State.atEnd (s : State) : Bool := decide (Config.progBase + s.progSize.val ≤ s.pc.toNat)

/-- `run <- Halted`: the cycle does nothing else (R131). -/
def State.halt (s : State) : State := { s with run := .halted }

/-- The fetch (R71, R133): the word at pc, high byte first, or none when pc + 1 is past the memory. -/
def State.fetch (s : State) : Option Word :=
  if s.pc.toNat + 1 < Config.memSize then some (wordOfBytes (s.M.read s.pc.toNat) (s.M.read (s.pc.toNat + 1)))
  else none

/-- The pc advance, right after the fetch (R134), with the fetched word held for this cycle (R44). -/
def State.advance (s : State) (op : Word) : State := { s with pc := s.pc + 2, op := op }

/-- The unimplemented outcome (R138, R310): the diagnostic, and nothing else beyond the pc advance. -/
def unimplemented (op : Word) (s : State) : Result := .next (s.emit (.unimpl op))

/-- Decode, dispatch and execute (R135 to R138). -/
def executeWord (op : Word) (s : State) : Result :=
  match decodeWord op with
  | .ok i => exec i s
  | .error _ => unimplemented op s

/-- Delay-timer decay (R140). -/
def State.decayDT (s : State) : State := if s.DT = 0 then s else s.setDT (s.DT - 1)

/-- Sound-timer decay and alert (R141). -/
def State.decayST (s : State) : State := if s.ST = 0 then s else (s.setST (s.ST - 1)).emit .beep

/-- What lives for one cycle only is gone (R44, R45). -/
def State.clearLatches (s : State) : State := { s with op := 0, K := 0 }

/-- The end of a cycle (R139 to R141): the timers decay unless a fault was taken. -/
def State.endCycle (s : State) : State :=
  match s.run with
  | .running => s.decayDT.decayST.clearLatches
  | .halted => s.clearLatches
  | .faulted => s.clearLatches
  | .rejected => s.clearLatches

/-- The end of a cycle, on an answer. -/
def finish : Result → Result
  | .next s => .next s.endCycle
  | .fault f => .fault f
  | .refused r => .refused r

/-- One cycle, when run is Running (R130). -/
def cycle (s : State) : Result :=
  if s.atEnd then .next s.halt
  else
    let s1 := s.sampleKeys
    match s1.fetch with
    | none => finish (.next (s1.takeFault .fetchRange s1.pc 0))
    | some op => finish (executeWord op (s1.advance op))

end Sys2Proof.Machine
end

