-- ==== Sys2Proof/Machine/Reset.lean ====
section
/-! DEFINITION. `reset(PROG)` (spec/70_reset_and_hazards.md R340 to R342), with the OPEN parameters as arguments, and
the model's own choice of them. -/

namespace Sys2Proof.Machine

/-- The values State.reset takes for the OPEN parameters (DESIGN CHOICE, log entries 1 to 3). -/
def chosenParams : Config.ResetParams where
  V := Vector.replicate 16 0
  I := 0
  S := Vector.replicate 16 0
  font := ⟨fontBytes.toArray, rfl⟩
  memFill := fun _ => memFill

/-- Memory after reset: MEM_FILL, then the glyph table, then the image, each byte for byte (R340). -/
def resetMemory (p : Config.ResetParams) (prog : List Byte) : Memory :=
  Memory.writeAll (Memory.writeAll (Memory.ofFun p.memFill) 0 p.font.toList) Config.progBase prog

/-- `reset(PROG)` (R340), in any run state (R342); an oversized image is rejected (R341), and then R340 writes only
run and the fault registers (log entry 11). The outside world's side is untouched (R342, D28). -/
def State.resetTo (s : State) (p : Config.ResetParams) (prog : List Byte) : State :=
  if h : prog.length < Config.progMax + 1 then
    { s with V := p.V, I := p.I, pc := 0x200, sp := 0, S := p.S, DT := 0, ST := 0
             M := resetMemory p prog, progSize := ⟨prog.length, h⟩, run := .running
             faultCause := 0, faultPc := 0, faultOp := 0, op := 0, K := 0 }
  else { s with run := .rejected, faultCause := 0, faultPc := 0, faultOp := 0 }

/-- `reset(PROG)` with the model's choice of the OPEN parameters: how a program comes to run (log entry 4). -/
def State.loadProgram (s : State) (prog : List Byte) : State := s.resetTo chosenParams prog

end Sys2Proof.Machine
end

