-- ==== Sys2Proof/Machine/Step.lean ====
section
/-! DEFINITION. The step strobe (R61, R144), and the placing of one instruction where the next step fetches. -/

namespace Sys2Proof.Machine

/-- One `step` strobe: a cycle when Running, nothing otherwise (R61, R130, R144). -/
def step (s : State) : Host.Outcome State Fault Refusal :=
  match s.run with
  | .running => cycle s
  | .halted => .next s
  | .faulted => .next s
  | .rejected => .next s

/-- Where `withFetchWord` places its word: at pc, or at the entry point when no word can be fetched at pc. -/
def State.fetchAddr (s : State) : Nat := if s.pc.toNat + 1 < Config.memSize then s.pc.toNat else Config.progBase

/-- The state with the instruction `w` (bits numbered as spec/opcode_table.json numbers them) placed where step
fetches next: its two bytes at pc, high byte first, run Running, and PROG_SIZE long enough that the halting test
passes (log entry 4). A pc at which no word can be fetched is moved to the entry point. -/
def State.withFetchWord (s : State) (nbits w : Nat) : State :=
  { s with
    pc := BitVec.ofNat 16 s.fetchAddr
    M := Memory.writeAll s.M s.fetchAddr (bytesOfWord (BitVec.ofNat 16 (w % 2 ^ nbits)))
    progSize := max s.progSize (Fin.ofNat (Config.progMax + 1) (s.fetchAddr + 2 - Config.progBase))
    run := .running }

end Sys2Proof.Machine
end

