-- ==== Sys2Proof/Safety.lean ====
section
/-! DEFINITION. The terms claims are stated in: what two states share (the frame rule, spec/00_scope.md R15), the
invariants of the machine, and what a safe run is. -/

namespace Sys2Proof.Safety

open Sys2Proof.Machine

/-! ## Frames -/

/-- Every general register but those `written` names keeps its value. -/
def SameRegsBut (written : Nibble → Prop) (s t : State) : Prop := ∀ z, ¬ written z → t.getV z = s.getV z

/-- Every general register keeps its value. -/
def SameRegs (s t : State) : Prop := ∀ z, t.getV z = s.getV z

/-- Every byte of memory reads as before. -/
def SameMemory (s t : State) : Prop := ∀ a, t.M.read a = s.M.read a

/-- Every byte outside the `count` bytes from `base` reads as before. -/
def SameMemoryBut (base count : Nat) (s t : State) : Prop :=
  ∀ a, (a < base ∨ base + count ≤ a) → t.M.read a = s.M.read a

/-- The stack pointer and every stack entry keep their values. -/
def SameStack (s t : State) : Prop := t.sp = s.sp ∧ ∀ k, t.stackEntry k = s.stackEntry k

/-- Both timers keep their values. -/
def SameTimers (s t : State) : Prop := t.DT = s.DT ∧ t.ST = s.ST

/-- PROG_SIZE, run and the fault registers keep their values. -/
def SameControl (s t : State) : Prop :=
  t.progSize = s.progSize ∧ t.run = s.run ∧ t.faultCause = s.faultCause ∧ t.faultPc = s.faultPc ∧
    t.faultOp = s.faultOp

/-- The fetched word and the key sample of this cycle keep their values. -/
def SameLatches (s t : State) : Prop := t.op = s.op ∧ t.K = s.K

/-- Nothing crosses the interface: no event, no input taken. -/
def SameInterface (s t : State) : Prop := t.io = s.io

/-- The state that no instruction but control transfer, the timers' and the memory's own touches: stack, timers,
control, latches. -/
def SameRest (s t : State) : Prop := SameStack s t ∧ SameTimers s t ∧ SameControl s t ∧ SameLatches s t

/-- The meaning completes; of the registers only `V[x]` is written, with `v`; pc, I, memory, the interface and the
rest are unchanged. -/
def WritesRegister (r : Result) (s : State) (x : Nibble) (v : Byte) : Prop :=
  ∃ t, r = .next t ∧ t.getV x = v ∧ SameRegsBut (· = x) s t ∧ t.pc = s.pc ∧ t.I = s.I ∧ SameMemory s t ∧
    SameInterface s t ∧ SameRest s t

/-- The meaning completes; of the registers only `V[x]` and VF are written, VF with `f` unless it is `V[x]`, then
`V[x]` with `v`; pc, I, memory, the interface and the rest are unchanged. -/
def WritesFlagAndRegister (r : Result) (s : State) (f : Byte) (x : Nibble) (v : Byte) : Prop :=
  ∃ t, r = .next t ∧ t.getV x = v ∧ (x ≠ VF → t.getV VF = f) ∧ SameRegsBut (fun z => z = x ∨ z = VF) s t ∧
    t.pc = s.pc ∧ t.I = s.I ∧ SameMemory s t ∧ SameInterface s t ∧ SameRest s t

/-- The meaning completes; pc becomes `target` and nothing else changes. -/
def OnlyJumps (r : Result) (s : State) (target : Word) : Prop :=
  ∃ t, r = .next t ∧ t.pc = target ∧ SameRegs s t ∧ t.I = s.I ∧ SameMemory s t ∧ SameInterface s t ∧ SameRest s t

/-- The meaning completes; I becomes `v` and nothing else changes. -/
def OnlySetsIndex (r : Result) (s : State) (v : Word) : Prop :=
  ∃ t, r = .next t ∧ t.I = v ∧ SameRegs s t ∧ t.pc = s.pc ∧ SameMemory s t ∧ SameInterface s t ∧ SameRest s t

/-- The `count` bytes from `base` are `f 0, f 1, …`, and every other byte is as before. -/
def StoresBytes (base count : Nat) (f : Nat → Byte) (s t : State) : Prop :=
  (∀ k, k < count → t.M.read (base + k) = f k) ∧ SameMemoryBut base count s t

/-- The meaning takes the fault `c` (R316): pc goes back by 2, run is Faulted, the fault registers record the cause,
that pc and the word of this cycle, and nothing else changes. -/
def TakesFault (r : Result) (s : State) (c : Cause) : Prop :=
  ∃ t, r = .next t ∧ t.pc = s.pc - 2 ∧ t.run = .faulted ∧ t.faultCause = c.code ∧ t.faultPc = s.pc - 2 ∧
    t.faultOp = s.op ∧ SameRegs s t ∧ t.I = s.I ∧ SameMemory s t ∧ SameStack s t ∧ SameTimers s t ∧
    t.progSize = s.progSize ∧ SameLatches s t ∧ SameInterface s t

/-- The display's part in drawing pixels one after the other (R230, R232): each answer is the one the interface gives at
that query, as the earlier queries left it, and it is followed by the setPixel of its opposite. -/
def DisplayAnswers : List (Nat × Nat) → List Bool → Interface → Interface → Prop
  | [], [], io, io' => io' = io
  | p :: ps, a :: answers, io, io' =>
    a = io.pixelAnswer p.1 p.2 ∧
      DisplayAnswers ps answers
        { io.afterPixel p.1 p.2 with
          events := .setPixel p.1 p.2 (!a) :: .getPixel p.1 p.2 a :: io.events } io'
  | [], _ :: _, _, _ => False
  | _ :: _, [], _, _ => False

/-! ## What a cycle fetches -/

/-- A Running machine whose pc is below the end of the image and whose word lies in memory: the word it fetches, high
byte first (R71, R130, R131, R133). -/
def Fetches (s : State) (w : Word) : Prop :=
  s.run = .running ∧ s.pc.toNat < 0x200 + s.progSize.val ∧ s.pc.toNat + 1 < 4096 ∧
    w = (s.M.read s.pc.toNat ++ s.M.read (s.pc.toNat + 1) : Word)

/-- The instruction the next step runs. -/
def Decodes (s : State) (i : Instr) : Prop := ∃ w, Fetches s w ∧ decodeWord w = .ok i

/-- The state a handler sees: the keys sampled, the word held, the pc advanced (R132, R134). -/
def handlerState (s : State) (w : Word) : State := s.sampleKeys.advance w

/-- When the next cycle raises each fault, by the table of R312. -/
def FaultCondition (s : State) : Cause → Prop
  | .stackOverflow => (∃ nnn, Decodes s (.call nnn)) ∧ s.sp = 16
  | .stackUnderflow => Decodes s .ret ∧ s.sp = 0
  | .memoryRange =>
    (∃ x y n, Decodes s (.drw x y n) ∧ ∃ k, k < n.toNat ∧ 4096 ≤ s.I.toNat + k) ∨
    (∃ x, Decodes s (.ldB x) ∧ ∃ k, k < 3 ∧ 4096 ≤ s.I.toNat + k) ∨
    (∃ x, (Decodes s (.ldMemVx x) ∨ Decodes s (.ldVxMem x)) ∧ ∃ k, k ≤ x.toNat ∧ 4096 ≤ s.I.toNat + k)
  | .fetchRange => s.run = .running ∧ s.pc.toNat < 0x200 + s.progSize.val ∧ 4096 ≤ s.pc.toNat + 1
  | .keyRange => ∃ x, (Decodes s (.skp x) ∨ Decodes s (.sknp x)) ∧ 0xF < (s.getV x).toNat

/-- How many beeps were emitted so far (R65). -/
def beeps (s : State) : Nat := s.io.events.count .beep

/-! ## Invariants -/

/-- The machine's invariant between cycles: memory in canonical form (R39), the stack pointer legal (R35), the fault
registers zero until a fault is taken, and a listed cause exactly when Faulted (R42, R313), and nothing kept of a
cycle that ended (R44, R45). -/
structure Inv (s : State) : Prop where
  memory : s.M.wf = true
  stackPointer : s.sp.toNat ≤ 16
  faulted : s.run = .faulted ↔ s.faultCause ≠ 0
  cause : s.faultCause.toNat ≤ 5
  noFault : s.run ≠ .faulted → s.faultPc = 0 ∧ s.faultOp = 0
  latches : s.op = 0 ∧ s.K = 0

/-- The program counter and the live return addresses stay in the ranges the control transfers allow (R34, R36, R164,
R168). -/
structure FlowInv (s : State) : Prop where
  stackPointer : s.sp.toNat ≤ 16
  pc : s.pc.toNat ≤ 0x10FE
  returns : ∀ k v, 1 ≤ k → k ≤ s.sp.toNat → s.stackEntry k = some v → v.toNat ≤ 0x1000

/-- The run state only reset leaves (R41). -/
def Terminal (s : State) : Prop := s.run ≠ .running

/-- A safe run of `k` steps: every step answers a state, and none of them is Faulted. -/
def SafeRun (k : Nat) (s : State) : Prop :=
  ∀ j, j ≤ k → ∃ t, Sys2Proof.core.run j s = .next t ∧ State.run t ≠ .faulted

end Sys2Proof.Safety
end

