-- ==== Sys2Proof/Certificates/Slice0/Obligations.lean ====
section
/-! DEFINITION. The statements for the provers. Each says what the machine does by a rule of spec/, or, where its
docstring says so, what the model chose. -/

open Sys2Proof Sys2Proof.Machine Sys2Proof.Safety

/-! ## Encoding and dispatch -/

/-- Words written out from the opcode map (R109) and the test vectors decode to the instruction they stand for, one or
more of every family. -/
def Obligations.SpecWordsDecode : Prop :=
  decodeWord 0x00E0 = .ok .cls ∧ decodeWord 0x00EE = .ok .ret ∧ decodeWord 0x2204 = .ok (.call 0x204) ∧
  decodeWord 0x3342 = .ok (.seImm 3 0x42) ∧ decodeWord 0x512F = .ok (.seReg 1 2 0xF) ∧
  decodeWord 0x8127 = .ok (.subn 1 2) ∧ decodeWord 0x819E = .ok (.shl 1 9) ∧ decodeWord 0xA2F0 = .ok (.ldI 0x2F0) ∧
  decodeWord 0xC30F = .ok (.rnd 3 0x0F) ∧ decodeWord 0xD012 = .ok (.drw 0 1 2) ∧ decodeWord 0xE29E = .ok (.skp 2) ∧
  decodeWord 0xF50A = .ok (.ldVxK 5) ∧ decodeWord 0xF265 = .ok (.ldVxMem 2) ∧
  decodeWord 0x01E0 = .error .unlisted0 ∧ decodeWord 0x8128 = .error .unlisted8 ∧
  decodeWord 0xE000 = .error .unlistedE ∧ decodeWord 0xF0FF = .error .unlistedF

/-- Decoding the bytes of any instruction gives it back, with whatever follows: no operand bit is dropped (R100, R101,
R109). It holds of the forms with don't-care bits too. -/
def Obligations.DecodeInvertsEncode : Prop :=
  ∀ (i : Instr) (rest : List Byte), decode (encode i ++ rest) = .ok (i, rest)

/-- Where a word decodes, encoding the instruction gives the word back: every word has one meaning (R103, R110). -/
def Obligations.EncodeInvertsDecode : Prop :=
  ∀ (w : Word) (i : Instr), decodeWord w = .ok i → encodeWord i = w

/-- The rows of the opcode map select the operations (R109): an instruction decoded from a word matches the word by its
own row's mask, and a word that matches a row decodes to that row's operation, so the rows do not overlap. -/
def Obligations.RowsSelectOperations : Prop :=
  (∀ (w : Word) (i : Instr), decodeWord w = .ok i → w &&& i.row.2 = i.row.1) ∧
  (∀ (w : Word) (j : Instr), w &&& j.row.2 = j.row.1 → ∃ i, decodeWord w = .ok i ∧ i.row = j.row)

/-- The words that select no operation are exactly the listed ones (R105 to R108, R111), said by arithmetic on the
word and not by the decoder's own field functions. -/
def Obligations.UnlistedWordsAreThese : Prop :=
  ∀ w : Word, (∃ e, decodeWord w = .error e) ↔
    (w.toNat < 0x1000 ∧ w.toNat ≠ 0x00E0 ∧ w.toNat ≠ 0x00EE) ∨
    (w.toNat / 0x1000 = 0x8 ∧ 8 ≤ w.toNat % 16 ∧ w.toNat % 16 ≠ 0xE) ∨
    (w.toNat / 0x1000 = 0xE ∧ w.toNat % 256 ≠ 0x9E ∧ w.toNat % 256 ≠ 0xA1) ∨
    (w.toNat / 0x1000 = 0xF ∧ w.toNat % 256 ∉ [0x07, 0x0A, 0x15, 0x18, 0x1E, 0x29, 0x33, 0x55, 0x65])

/-! ## The cycle -/

/-- A step runs the decoded instruction: the handler sees pc advanced by 2, the fetched word and the key sample, all
else as it was (R130, R132, R134), and the step is exec's answer with the end of the cycle after it. The feed of key
levels is the model's form of the keys port (log entry 8). -/
def Obligations.StepRunsDecodedInstruction : Prop :=
  ∀ (s : State) (w : Word) (i : Instr), Fetches s w → decodeWord w = .ok i →
    ∃ u : State, u.pc = s.pc + 2 ∧ u.op = w ∧ u.K = s.io.keyFeed.headD s.io.keys ∧ SameRegs s u ∧ u.I = s.I ∧
      SameMemory s u ∧ SameStack s u ∧ SameTimers s u ∧ SameControl s u ∧
      u.io = { s.io with keys := s.io.keyFeed.headD s.io.keys, keyFeed := s.io.keyFeed.tail } ∧
      (∀ t, exec i u = .next t → step s = .next t.endCycle) ∧
      (∀ f, exec i u = .fault f → step s = .fault f) ∧ (∀ r, exec i u = .refused r → step s = .refused r)

/-- A word that selects no operation emits unimpl and changes nothing else beyond the pc advance; the cycle goes on and
both timers decay (R138, R310). -/
def Obligations.UnimplementedWordContinues : Prop :=
  ∀ (s : State) (w : Word) (e : Reject), Fetches s w → decodeWord w = .error e →
    ∃ t, step s = .next t ∧ t.pc = s.pc + 2 ∧ SameRegs s t ∧ t.I = s.I ∧ SameMemory s t ∧ SameStack s t ∧
      SameControl s t ∧ t.DT.toNat = s.DT.toNat - 1 ∧ t.ST.toNat = s.ST.toNat - 1 ∧
      t.io.events = (if s.ST = 0 then [] else [.beep]) ++ .unimpl w :: s.io.events

/-- The halting test: a Running machine whose pc is at or past the end of the image becomes Halted, and that cycle does
nothing else; below the end it does not become Halted (R131). -/
def Obligations.HaltingTest : Prop :=
  (∀ s : State, s.run = .running → 0x200 + s.progSize.val ≤ s.pc.toNat → step s = .next { s with run := .halted }) ∧
  (∀ s t : State, s.run = .running → s.pc.toNat < 0x200 + s.progSize.val → step s = .next t → t.run ≠ .halted)

/-- A machine that is Halted, Faulted or Rejected does nothing, however often it is strobed (R144, R317). -/
def Obligations.TerminalStatesDoNothing : Prop :=
  ∀ (k : Nat) (s : State), s.run ≠ .running → Sys2Proof.core.run k s = .next s

/-- The fetch (R133): below the end of the image a fetch can only fail at pc = 0xFFF with the longest image, and then
FetchRange is taken, with no word recorded and nothing else changed; otherwise the word is the two bytes at pc, high
byte first. That only this pc can fail is the spec's own derivation. -/
def Obligations.FetchRangeOnlyAtTop : Prop :=
  ∀ s : State, s.run = .running → s.pc.toNat < 0x200 + s.progSize.val →
    (4096 ≤ s.pc.toNat + 1 →
      s.pc.toNat = 0xFFF ∧ s.progSize.val = 0xE00 ∧
      ∃ t, step s = .next t ∧ t.run = .faulted ∧ t.faultCause = 4 ∧ t.faultPc = s.pc ∧ t.faultOp = 0 ∧ t.pc = s.pc ∧
        SameRegs s t ∧ t.I = s.I ∧ SameMemory s t ∧ SameStack s t ∧ SameTimers s t ∧ t.progSize = s.progSize ∧
        t.io.events = s.io.events) ∧
    (s.pc.toNat + 1 < 4096 →
      ∃ w : Word, s.fetch = some w ∧ w.toNat = 256 * (s.M.read s.pc.toNat).toNat + (s.M.read (s.pc.toNat + 1)).toNat)

/-- Timer decay (R140, R141): in every cycle that neither halts nor faults, whatever word it fetched, DT and ST each go
down by one from what the instruction left, never below 0, and a beep is emitted exactly when ST goes down; nothing
else is touched at the end of the cycle. -/
def Obligations.TimersDecayEachExecutedCycle : Prop :=
  ∀ (s u : State) (w : Word), Fetches s w → executeWord w (handlerState s w) = .next u → u.run = .running →
    ∃ t, step s = .next t ∧ t.DT.toNat = u.DT.toNat - 1 ∧ t.ST.toNat = u.ST.toNat - 1 ∧
      t.io.events = (if u.ST = 0 then [] else [.beep]) ++ u.io.events ∧
      SameRegs u t ∧ t.pc = u.pc ∧ t.I = u.I ∧ SameMemory u t ∧ SameStack u t ∧ SameControl u t

/-- Every step answers a state: with a legal stack pointer the model never stops (no fault of the model, no refusal),
whatever word is fetched. -/
def Obligations.NoStepStops : Prop := ∀ s : State, s.sp.toNat ≤ 16 → ∃ t, step s = .next t

/-! ## Faults -/

/-- Faults are precise (R315): a step that ends Faulted leaves V, I, pc, sp, S, DT, ST and M as they were at its start,
and emits nothing. -/
def Obligations.FaultsArePrecise : Prop :=
  ∀ s t : State, s.run = .running → step s = .next t → t.run = .faulted →
    SameRegs s t ∧ t.I = s.I ∧ t.pc = s.pc ∧ SameStack s t ∧ SameTimers s t ∧ SameMemory s t ∧
      t.io.events = s.io.events

/-- A step of a Running machine ends Faulted exactly under the conditions the table of faults lists (R312). -/
def Obligations.FaultsExactlyAsListed : Prop :=
  ∀ s t : State, s.run = .running → step s = .next t → (t.run = .faulted ↔ ∃ c, FaultCondition s c)

/-- Fault entry (R316): under the condition of a fault the step takes it: run Faulted, the cause code of R313, pc and
FAULT_PC at the instruction, FAULT_OP the fetched word, or 0 for FetchRange; no timer decays, nothing is emitted, and
nothing else changes. -/
def Obligations.FaultEntryRecords : Prop :=
  ∀ (s : State) (c : Cause), FaultCondition s c →
    ∃ t, step s = .next t ∧ t.run = .faulted ∧ t.pc = s.pc ∧ t.faultPc = s.pc ∧
      (c = .fetchRange → t.faultOp = 0) ∧ (∀ w, Fetches s w → t.faultOp = w) ∧
      t.faultCause =
        (match c with
         | .stackOverflow => 1
         | .stackUnderflow => 2
         | .memoryRange => 3
         | .fetchRange => 4
         | .keyRange => 5) ∧
      SameTimers s t ∧ t.io.events = s.io.events ∧ SameRegs s t ∧ t.I = s.I ∧ SameStack s t ∧ SameMemory s t ∧
      t.progSize = s.progSize

/-! ## Invariants -/

/-- Every step keeps the machine's invariant, from every state that meets it. The canonical form of memory and the cleared
word and key sample are the model's choice (log entry 7). -/
def Obligations.StepKeepsMachineInvariant : Prop := ∀ s t : State, Inv s → step s = .next t → Inv t

/-- The state after reset meets the machine's invariant: a legal stack pointer and no fault recorded (R47); that memory is in
canonical form and the word and key sample are 0 is the model's choice (log entry 7). -/
def Obligations.ResetMeetsMachineInvariant : Prop := Inv State.reset

/-- Every step keeps pc at or below 0x10FE and every live return address at or below 0x1000 (R34, R164, R168). -/
def Obligations.StepKeepsFlowRange : Prop := ∀ s t : State, FlowInv s → step s = .next t → FlowInv t

/-- The state after reset has its pc and its return addresses in range. -/
def Obligations.ResetMeetsFlowRange : Prop := FlowInv State.reset

/-- PROG_SIZE never changes in a step, and only the halting test reads it (R40): two machines that differ in it alone,
both below their image's end, step alike. -/
def Obligations.ProgramSizeIsImmutable : Prop :=
  (∀ s t : State, step s = .next t → t.progSize = s.progSize) ∧
  (∀ (s t : State) (n : Fin (Config.progMax + 1)), s.run = .running → s.pc.toNat < 0x200 + s.progSize.val →
    s.pc.toNat < 0x200 + n.val → step s = .next t → step { s with progSize := n } = .next { t with progSize := n })

/-- Only CALL and RET change the stack pointer, and only CALL changes a stack entry (R35, R36). -/
def Obligations.OnlyCallAndReturnTouchTheStack : Prop :=
  ∀ s t : State, step s = .next t →
    (t.sp ≠ s.sp → (∃ nnn, Decodes s (.call nnn)) ∨ Decodes s .ret) ∧
    ((∃ k, t.stackEntry k ≠ s.stackEntry k) → ∃ nnn, Decodes s (.call nnn))

/-- Only LD I, ADD I and LD F change the index register (R33). -/
def Obligations.OnlyIndexInstructionsWriteI : Prop :=
  ∀ s t : State, step s = .next t → t.I ≠ s.I →
    (∃ nnn, Decodes s (.ldI nnn)) ∨ ∃ x, Decodes s (.addI x) ∨ Decodes s (.ldF x)

/-- Only LD B and LD [I] change memory, and only at I to I + 2, or I to I + x (R73, R77). -/
def Obligations.OnlyStoresChangeMemory : Prop :=
  ∀ (s t : State) (a : Nat), step s = .next t → t.M.read a ≠ s.M.read a →
    (∃ x, Decodes s (.ldB x) ∧ s.I.toNat ≤ a ∧ a ≤ s.I.toNat + 2) ∨
    (∃ x, Decodes s (.ldMemVx x) ∧ s.I.toNat ≤ a ∧ a ≤ s.I.toNat + x.toNat)

/-- VF changes only in the six instructions that write it as a flag, or in one whose destination register it is (R31). -/
def Obligations.OnlyFlagWritersChangeVF : Prop :=
  ∀ s t : State, step s = .next t → t.getV VF ≠ s.getV VF →
    (∃ x y, Decodes s (.addReg x y) ∨ Decodes s (.sub x y) ∨ Decodes s (.shr x y) ∨ Decodes s (.subn x y) ∨
      Decodes s (.shl x y) ∨ ∃ n, Decodes s (.drw x y n)) ∨
    (∃ nn, Decodes s (.ldImm VF nn) ∨ Decodes s (.addImm VF nn) ∨ Decodes s (.rnd VF nn)) ∨
    (∃ y, Decodes s (.ldReg VF y) ∨ Decodes s (.orReg VF y) ∨ Decodes s (.andReg VF y) ∨ Decodes s (.xorReg VF y)) ∨
    Decodes s (.ldVxDT VF) ∨ Decodes s (.ldVxK VF) ∨ Decodes s (.ldVxMem VF)

/-! ## Control transfer -/

/-- JP and JP V0 (R163, R168): the target, with no wrap, and nothing else. -/
def Obligations.JumpsGoToTheirTarget : Prop :=
  ∀ (s : State) (nnn : Addr12),
    encodeWord (.jp nnn) = 0x1000#16 ||| nnn.setWidth 16 ∧ encodeWord (.jpV0 nnn) = 0xB000#16 ||| nnn.setWidth 16 ∧
    OnlyJumps (exec (.jp nnn) s) s (nnn.setWidth 16) ∧
    OnlyJumps (exec (.jpV0 nnn) s) s (BitVec.ofNat 16 (nnn.toNat + (s.getV 0).toNat)) ∧
    nnn.toNat + (s.getV 0).toNat ≤ 0x10FE

/-- A jump to its own address loops forever while the timers run down (R163, R131, R140): after any number of cycles the
machine still runs at the jump, and never halts or faults. -/
def Obligations.SelfJumpRunsForever : Prop :=
  ∀ (k : Nat) (s : State), Decodes s (.jp (s.pc.setWidth 12)) →
    ∃ t : State, Sys2Proof.core.run k s = .next t ∧ t.run = .running ∧ t.pc = s.pc ∧ SameRegs s t ∧ SameMemory s t ∧
      t.DT.toNat = s.DT.toNat - k ∧ t.ST.toNat = s.ST.toNat - k

/-- The four skips on a comparison (R164 to R167): pc + 2 when it holds, pc as it is otherwise, and nothing else; the low
nibble of 5xyn and 9xyn makes no difference; after a fetch from 0xFFF or below the addition never wraps. -/
def Obligations.SkipsOnComparison : Prop :=
  ∀ (s : State) (x y n : Nibble) (nn : Byte),
    encodeWord (.seImm x nn) = 0x3000#16 ||| x.setWidth 16 <<< 8 ||| nn.setWidth 16 ∧
    encodeWord (.sneImm x nn) = 0x4000#16 ||| x.setWidth 16 <<< 8 ||| nn.setWidth 16 ∧
    encodeWord (.seReg x y n) = 0x5000#16 ||| x.setWidth 16 <<< 8 ||| y.setWidth 16 <<< 4 ||| n.setWidth 16 ∧
    encodeWord (.sneReg x y n) = 0x9000#16 ||| x.setWidth 16 <<< 8 ||| y.setWidth 16 <<< 4 ||| n.setWidth 16 ∧
    (s.pcI.toNat ≤ 0xFFF → (s.pc + 2).toNat ≤ 0x1003) ∧
    OnlyJumps (exec (.seImm x nn) s) s (if s.getV x = nn then s.pc + 2 else s.pc) ∧
    OnlyJumps (exec (.sneImm x nn) s) s (if s.getV x = nn then s.pc else s.pc + 2) ∧
    OnlyJumps (exec (.seReg x y n) s) s (if s.getV x = s.getV y then s.pc + 2 else s.pc) ∧
    OnlyJumps (exec (.sneReg x y n) s) s (if s.getV x = s.getV y then s.pc else s.pc + 2)

/-- CALL (R162): below depth 16, sp goes up by one, the new top entry is the pc after the call, pc is the target, every
other entry and everything else is unchanged; at depth 16 StackOverflow is taken. -/
def Obligations.CallPushesReturnAddress : Prop :=
  ∀ (s : State) (nnn : Addr12),
    encodeWord (.call nnn) = 0x2000#16 ||| nnn.setWidth 16 ∧
    (s.sp.toNat < 16 →
      ∃ t, exec (.call nnn) s = .next t ∧ t.pc = nnn.setWidth 16 ∧ t.sp.toNat = s.sp.toNat + 1 ∧
        t.stackEntry (s.sp.toNat + 1) = some s.pc ∧ (∀ k, k ≠ s.sp.toNat + 1 → t.stackEntry k = s.stackEntry k) ∧
        SameRegs s t ∧ t.I = s.I ∧ SameMemory s t ∧ SameTimers s t ∧ SameControl s t ∧ SameLatches s t ∧
        SameInterface s t) ∧
    (s.sp = 16 → TakesFault (exec (.call nnn) s) s .stackOverflow)

/-- RET (R161): with a return address on the stack, pc is the top entry, sp goes down by one, the entries and everything
else are unchanged; with none, StackUnderflow is taken. -/
def Obligations.ReturnPopsReturnAddress : Prop :=
  ∀ s : State,
    encodeWord .ret = 0x00EE#16 ∧
    (1 ≤ s.sp.toNat → s.sp.toNat ≤ 16 →
      ∃ t, exec .ret s = .next t ∧ s.stackEntry s.sp.toNat = some t.pc ∧ t.sp.toNat = s.sp.toNat - 1 ∧
        (∀ k, t.stackEntry k = s.stackEntry k) ∧
        SameRegs s t ∧ t.I = s.I ∧ SameMemory s t ∧ SameTimers s t ∧ SameControl s t ∧ SameLatches s t ∧
        SameInterface s t) ∧
    (s.sp = 0 → TakesFault (exec .ret s) s .stackUnderflow)

/-- THE MODEL'S CHOICE (log entry 10): in the states no run reaches, with sp above 16 (R35: legal values 0 to 16), CALL
and RET name an entry that does not exist, and the model stops. -/
def Obligations.MissingStackEntryStops : Prop :=
  ∀ (s : State) (nnn : Addr12), 16 < s.sp.toNat →
    exec (.call nnn) s = .fault .stackEntryMissing ∧ exec .ret s = .fault .stackEntryMissing

/-- A call and the return that follows it come back to the word after the call, with the stack pointer as it was (R161,
R162). -/
def Obligations.ReturnComesBackAfterCall : Prop :=
  ∀ (s : State) (nnn : Addr12), s.sp.toNat < 16 →
    ∃ t u, exec (.call nnn) s = .next t ∧ exec .ret t = .next u ∧ u.pc = s.pc ∧ u.sp = s.sp

/-! ## Registers and arithmetic -/

/-- Immediate loads and adds, the register copy and the logic operations (R192 to R197): the value written, and nothing
else; no flag is recorded and VF is not reset. -/
def Obligations.LoadAddAndLogicResults : Prop :=
  ∀ (s : State) (x y : Nibble) (nn : Byte),
    encodeWord (.ldImm x nn) = 0x6000#16 ||| x.setWidth 16 <<< 8 ||| nn.setWidth 16 ∧
    encodeWord (.addImm x nn) = 0x7000#16 ||| x.setWidth 16 <<< 8 ||| nn.setWidth 16 ∧
    encodeWord (.ldReg x y) = 0x8000#16 ||| x.setWidth 16 <<< 8 ||| y.setWidth 16 <<< 4 ∧
    encodeWord (.orReg x y) = 0x8001#16 ||| x.setWidth 16 <<< 8 ||| y.setWidth 16 <<< 4 ∧
    encodeWord (.andReg x y) = 0x8002#16 ||| x.setWidth 16 <<< 8 ||| y.setWidth 16 <<< 4 ∧
    encodeWord (.xorReg x y) = 0x8003#16 ||| x.setWidth 16 <<< 8 ||| y.setWidth 16 <<< 4 ∧
    WritesRegister (exec (.ldImm x nn) s) s x nn ∧
    WritesRegister (exec (.addImm x nn) s) s x (BitVec.ofNat 8 (((s.getV x).toNat + nn.toNat) % 256)) ∧
    WritesRegister (exec (.ldReg x y) s) s x (s.getV y) ∧
    WritesRegister (exec (.orReg x y) s) s x (s.getV x ||| s.getV y) ∧
    WritesRegister (exec (.andReg x y) s) s x (s.getV x &&& s.getV y) ∧
    WritesRegister (exec (.xorReg x y) s) s x (s.getV x ^^^ s.getV y)

/-- ADD Vx, Vy (R201, R200): carry to VF first, then the sum modulo 256 from the registers as they stand then; the four
cases of the rule, by which of x and y is VF. -/
def Obligations.AddWritesCarryThenSum : Prop :=
  ∀ (s : State) (x y : Nibble),
    let a := (s.getV x).toNat
    let b := (s.getV y).toNat
    let c := if a + b > 255 then 1 else 0
    encodeWord (.addReg x y) = 0x8004#16 ||| x.setWidth 16 <<< 8 ||| y.setWidth 16 <<< 4 ∧
    (x ≠ VF → y ≠ VF →
      WritesFlagAndRegister (exec (.addReg x y) s) s (BitVec.ofNat 8 c) x (BitVec.ofNat 8 ((a + b) % 256))) ∧
    (x = VF → y ≠ VF →
      WritesFlagAndRegister (exec (.addReg x y) s) s (BitVec.ofNat 8 c) x (BitVec.ofNat 8 ((c + b) % 256))) ∧
    (x ≠ VF → y = VF →
      WritesFlagAndRegister (exec (.addReg x y) s) s (BitVec.ofNat 8 c) x (BitVec.ofNat 8 ((a + c) % 256))) ∧
    (x = VF → y = VF →
      WritesFlagAndRegister (exec (.addReg x y) s) s (BitVec.ofNat 8 c) x
        (BitVec.ofNat 8 (if a ≥ 0x80 then 2 else 0)))

/-- SUB Vx, Vy (R202, R200): VF is 1 exactly when Vx > Vy, written first, then the difference modulo 256 from the
registers as they stand then. -/
def Obligations.SubWritesStrictFlagThenDifference : Prop :=
  ∀ (s : State) (x y : Nibble),
    let a := (s.getV x).toNat
    let b := (s.getV y).toNat
    let c := if a > b then 1 else 0
    encodeWord (.sub x y) = 0x8005#16 ||| x.setWidth 16 <<< 8 ||| y.setWidth 16 <<< 4 ∧
    (x ≠ VF → y ≠ VF →
      WritesFlagAndRegister (exec (.sub x y) s) s (BitVec.ofNat 8 c) x (BitVec.ofNat 8 ((a + 256 - b) % 256))) ∧
    (x = VF → y ≠ VF →
      WritesFlagAndRegister (exec (.sub x y) s) s (BitVec.ofNat 8 c) x (BitVec.ofNat 8 ((c + 256 - b) % 256))) ∧
    (x ≠ VF → y = VF →
      WritesFlagAndRegister (exec (.sub x y) s) s (BitVec.ofNat 8 c) x (BitVec.ofNat 8 ((a + 256 - c) % 256))) ∧
    (x = VF → y = VF → WritesFlagAndRegister (exec (.sub x y) s) s (BitVec.ofNat 8 c) x 0)

/-- SUBN Vx, Vy (R204, R200): VF is 1 exactly when Vy > Vx, written first, then Vy − Vx modulo 256 from the registers as
they stand then. -/
def Obligations.SubnWritesStrictFlagThenDifference : Prop :=
  ∀ (s : State) (x y : Nibble),
    let a := (s.getV x).toNat
    let b := (s.getV y).toNat
    let c := if b > a then 1 else 0
    encodeWord (.subn x y) = 0x8007#16 ||| x.setWidth 16 <<< 8 ||| y.setWidth 16 <<< 4 ∧
    (x ≠ VF → y ≠ VF →
      WritesFlagAndRegister (exec (.subn x y) s) s (BitVec.ofNat 8 c) x (BitVec.ofNat 8 ((b + 256 - a) % 256))) ∧
    (x = VF → y ≠ VF →
      WritesFlagAndRegister (exec (.subn x y) s) s (BitVec.ofNat 8 c) x (BitVec.ofNat 8 ((b + 256 - c) % 256))) ∧
    (x ≠ VF → y = VF →
      WritesFlagAndRegister (exec (.subn x y) s) s (BitVec.ofNat 8 c) x (BitVec.ofNat 8 ((c + 256 - a) % 256))) ∧
    (x = VF → y = VF → WritesFlagAndRegister (exec (.subn x y) s) s (BitVec.ofNat 8 c) x 0)

/-- SHR and SHL (R203, R205, R200): the bit shifted out to VF first, then Vx shifted in place by one; `y` is never read.
With x = VF, SHR leaves 0 and SHL leaves 2 or 0. -/
def Obligations.ShiftsWriteBitOutThenShift : Prop :=
  ∀ (s : State) (x y : Nibble),
    let a := (s.getV x).toNat
    encodeWord (.shr x y) = 0x8006#16 ||| x.setWidth 16 <<< 8 ||| y.setWidth 16 <<< 4 ∧
    encodeWord (.shl x y) = 0x800E#16 ||| x.setWidth 16 <<< 8 ||| y.setWidth 16 <<< 4 ∧
    WritesFlagAndRegister (exec (.shr x y) s) s (BitVec.ofNat 8 (a % 2)) x
      (if x = VF then 0 else BitVec.ofNat 8 (a / 2)) ∧
    WritesFlagAndRegister (exec (.shl x y) s) s (BitVec.ofNat 8 (a / 128)) x
      (if x = VF then BitVec.ofNat 8 (2 * (a / 128)) else BitVec.ofNat 8 (2 * a % 256))

/-- RND (R210, R63): the byte delivered, masked by nn; each execution takes a fresh one. That the byte is the head of the
environment's feed, or else a free one, is the model's form of the rnd input (log entry 5). -/
def Obligations.RandomByteIsMasked : Prop :=
  ∀ (s : State) (x : Nibble) (nn : Byte),
    encodeWord (.rnd x nn) = 0xC000#16 ||| x.setWidth 16 <<< 8 ||| nn.setWidth 16 ∧
    ∃ (r : Byte) (t : State), exec (.rnd x nn) s = .next t ∧ t.getV x = r &&& nn ∧
      (∀ b rest, s.io.rndFeed = b :: rest → r = b ∧ t.io = { s.io with rndFeed := rest }) ∧
      (s.io.rndFeed = [] →
        r = Config.freeRnd s.io.rndDraws ∧ t.io = { s.io with rndDraws := s.io.rndDraws + 1 }) ∧
      SameRegsBut (· = x) s t ∧ t.pc = s.pc ∧ t.I = s.I ∧ SameMemory s t ∧ SameRest s t

/-! ## Display -/

/-- CLS (R231): clear, then present, and no CORE state changes. -/
def Obligations.ClearThenPresent : Prop :=
  ∀ s : State, encodeWord .cls = 0x00E0#16 ∧
    ∃ t, exec .cls s = .next t ∧ t.io = { s.io with events := .present :: .clear :: s.io.events } ∧
      SameRegs s t ∧ t.pc = s.pc ∧ t.I = s.I ∧ SameMemory s t ∧ SameRest s t

/-- DRW (R232): when every row lies in memory it completes. The pixels of the sprite's set bits, at the coordinates read
before VF is cleared, rows ascending and columns left to right, each get one getPixel and one setPixel of the opposite of
its answer, then one present, for n = 0 too; each answer is the one the interface gives at that query; VF is 1 exactly
when an answer was true; of the interface only the events, the feed of answers and its counter change, and no other
register, I, pc, memory or other state does. With a surface of unknown size the answers are the feed's, in order, and
free values after it. When a row does not lie in memory, MemoryRange is taken before any effect. The bit order of a row is
the spec's own decision (R233, D16); where an answer comes from and the list of events are the model's form of the display
port (log entries 6, 9). -/
def Obligations.DrawTogglesSpritePixels : Prop :=
  ∀ (s : State) (x y n : Nibble),
    let pixels := spritePixels s.M s.I.toNat n.toNat (s.getV x).toNat (s.getV y).toNat
    encodeWord (.drw x y n) = 0xD000#16 ||| x.setWidth 16 <<< 8 ||| y.setWidth 16 <<< 4 ||| n.setWidth 16 ∧
    ((∀ k, k < n.toNat → s.I.toNat + k < 4096) →
      ∃ (t : State) (answers : List Bool), exec (.drw x y n) s = .next t ∧ answers.length = pixels.length ∧
        (∀ p ∈ pixels, p.1 ≤ 262 ∧ p.2 ≤ 269) ∧
        t.io.events =
          ((pixels.zip answers).flatMap
            (fun q => [Event.getPixel q.1.1 q.1.2 q.2, Event.setPixel q.1.1 q.1.2 (!q.2)])
            ++ [Event.present]).reverse ++ s.io.events ∧
        (∃ io, DisplayAnswers pixels answers s.io io ∧ t.io = { io with events := .present :: io.events }) ∧
        t.io = { s.io with
          events := t.io.events, pixelFeed := t.io.pixelFeed, pixelDraws := t.io.pixelDraws } ∧
        (s.io.surface = none →
          (∀ k, k < pixels.length → answers[k]? = some
            (s.io.pixelFeed[k]?.getD (Config.freePixel (s.io.pixelDraws + (k - s.io.pixelFeed.length))))) ∧
          t.io.pixelFeed = s.io.pixelFeed.drop pixels.length ∧
          t.io.pixelDraws = s.io.pixelDraws + (pixels.length - s.io.pixelFeed.length)) ∧
        t.getV VF = (if true ∈ answers then 1 else 0) ∧
        SameRegsBut (· = VF) s t ∧ t.pc = s.pc ∧ t.I = s.I ∧ SameMemory s t ∧ SameRest s t) ∧
    ((∃ k, k < n.toNat ∧ 4096 ≤ s.I.toNat + k) → TakesFault (exec (.drw x y n) s) s .memoryRange)

/-- The pixels of a sprite (R232, R233): column j of row i, at (cx + j, cy + i) as naturals, is named exactly when bit
7 − j of the row's byte is set, once, and rows come before columns. The bit order is the spec's own decision (D16). -/
def Obligations.SpriteColumnsAreMsbFirst : Prop :=
  ∀ (m : Memory) (base n cx cy : Nat),
    (∀ px py, (px, py) ∈ spritePixels m base n cx cy ↔
      ∃ i j, i < n ∧ j < 8 ∧ (m.read (base + i)).getLsbD (7 - j) = true ∧ px = cx + j ∧ py = cy + i) ∧
    (spritePixels m base n cx cy).Pairwise (fun p q => p.2 < q.2 ∨ (p.2 = q.2 ∧ p.1 < q.1))

/-- The display keeps its pixels (R64): after a setPixel of a pixel on the surface getPixel answers the value written,
after a clear it answers false, and a setPixel of another pixel does not change what is kept. That the surface's size may
be unknown, and that another pixel off the surface is among those that change nothing (a no-op, no clamp), are the model's
choices (log entries 6, 13). -/
def Obligations.DisplayKeepsWrittenPixels : Prop :=
  ∀ (s : State) (w h x y : Nat) (on : Bool), s.io.surface = some (w, h) → x < w → y < h →
    (s.setPixel x y on).io.pixelAnswer x y = on ∧ (s.emit .clear).io.pixelAnswer x y = false ∧
    (∀ x' y' on', (x', y') ≠ (x, y) → (s.setPixel x' y' on').io.kept x y = s.io.kept x y)

/-- Collision on the second draw (R234): with the sprite on the surface and its coordinates not in VF, the second of two
draws turns each of the sprite's pixels back from what the first left, and sets VF exactly when the first draw left
one of them on. R234 is the spec's own
derivation; a surface of known size is the model's form of it (log entry 6). -/
def Obligations.SecondDrawUndoesTheFirst : Prop :=
  ∀ (s : State) (x y n : Nibble) (w h : Nat), s.io.surface = some (w, h) → x ≠ VF → y ≠ VF →
    (∀ k, k < n.toNat → s.I.toNat + k < 4096) →
    (∀ p ∈ spritePixels s.M s.I.toNat n.toNat (s.getV x).toNat (s.getV y).toNat, p.1 < w ∧ p.2 < h) →
    ∃ t u, exec (.drw x y n) s = .next t ∧ exec (.drw x y n) t = .next u ∧
      (∀ p ∈ spritePixels s.M s.I.toNat n.toNat (s.getV x).toNat (s.getV y).toNat,
        ∃ b, t.io.kept p.1 p.2 = some b ∧ u.io.kept p.1 p.2 = some (!b)) ∧
      (u.getV VF = 1 ↔
        ∃ p ∈ spritePixels s.M s.I.toNat n.toNat (s.getV x).toNat (s.getV y).toNat,
          t.io.kept p.1 p.2 = some true)

/-! ## Keys and timers -/

/-- SKP and SKNP (R250, R251): with a key index in Vx they skip on the sample's bit and change nothing else; above 0xF
KeyRange is taken. -/
def Obligations.KeySkipsTestTheSample : Prop :=
  ∀ (s : State) (x : Nibble),
    encodeWord (.skp x) = 0xE09E#16 ||| x.setWidth 16 <<< 8 ∧
    encodeWord (.sknp x) = 0xE0A1#16 ||| x.setWidth 16 <<< 8 ∧
    ((s.getV x).toNat ≤ 0xF →
      OnlyJumps (exec (.skp x) s) s (if s.K.getLsbD (s.getV x).toNat = true then s.pc + 2 else s.pc) ∧
      OnlyJumps (exec (.sknp x) s) s (if s.K.getLsbD (s.getV x).toNat = true then s.pc else s.pc + 2)) ∧
    (0xF < (s.getV x).toNat →
      TakesFault (exec (.skp x) s) s .keyRange ∧ TakesFault (exec (.sknp x) s) s .keyRange)

/-- LD Vx, K (R253): with no key held pc goes back by 2 and nothing else changes; with keys held, Vx is the highest of
them and nothing else changes. -/
def Obligations.KeyWaitRewindsOrStoresHighest : Prop :=
  ∀ (s : State) (x : Nibble),
    encodeWord (.ldVxK x) = 0xF00A#16 ||| x.setWidth 16 <<< 8 ∧
    ((∀ k, k < 16 → s.K.getLsbD k = false) → OnlyJumps (exec (.ldVxK x) s) s (s.pc - 2)) ∧
    (∀ k, k < 16 → s.K.getLsbD k = true → (∀ j, j < 16 → k < j → s.K.getLsbD j = false) →
      WritesRegister (exec (.ldVxK x) s) s x (BitVec.ofNat 8 k))

/-- The timer transfers (R252, R254, R255), before the cycle's decay: Vx ← DT, DT ← Vx, ST ← Vx, and nothing else. -/
def Obligations.TimerTransfers : Prop :=
  ∀ (s : State) (x : Nibble),
    encodeWord (.ldVxDT x) = 0xF007#16 ||| x.setWidth 16 <<< 8 ∧
    encodeWord (.ldDTVx x) = 0xF015#16 ||| x.setWidth 16 <<< 8 ∧
    encodeWord (.ldSTVx x) = 0xF018#16 ||| x.setWidth 16 <<< 8 ∧
    WritesRegister (exec (.ldVxDT x) s) s x s.DT ∧
    (∃ t, exec (.ldDTVx x) s = .next t ∧ t.DT = s.getV x ∧ t.ST = s.ST ∧ SameRegs s t ∧ t.pc = s.pc ∧ t.I = s.I ∧
      SameMemory s t ∧ SameStack s t ∧ SameControl s t ∧ SameLatches s t ∧ SameInterface s t) ∧
    (∃ t, exec (.ldSTVx x) s = .next t ∧ t.ST = s.getV x ∧ t.DT = s.DT ∧ SameRegs s t ∧ t.pc = s.pc ∧ t.I = s.I ∧
      SameMemory s t ∧ SameStack s t ∧ SameControl s t ∧ SameLatches s t ∧ SameInterface s t)

/-- A timer written in a cycle decays in that same cycle (R140, R141, R254, R255, R351): Fx15 leaves V[x] − 1, or 0; Fx18
leaves V[x] − 1 with one beep, or 0 with none. -/
def Obligations.WrittenTimerDecaysInTheSameCycle : Prop :=
  ∀ (s : State) (x : Nibble),
    (Decodes s (.ldDTVx x) → ∃ t, step s = .next t ∧ t.DT.toNat = (s.getV x).toNat - 1) ∧
    (Decodes s (.ldSTVx x) → ∃ t, step s = .next t ∧ t.ST.toNat = (s.getV x).toNat - 1 ∧
      beeps t = beeps s + min (s.getV x).toNat 1)

/-- Timers along a run (R351): after k executed cycles, none of which writes the timer, DT is max(0, DT − k), ST is
max(0, ST − k) and min(ST, k) beeps were emitted. R351 is the spec's own derivation. -/
def Obligations.TimersCountDownAlongRuns : Prop :=
  ∀ (k : Nat) (s t : State), Sys2Proof.core.run k s = .next t → t.run = .running →
    ((∀ j, j < k → ∀ u : State, Sys2Proof.core.run j s = .next u → ∀ x, ¬ Decodes u (.ldDTVx x)) →
      t.DT.toNat = s.DT.toNat - k) ∧
    ((∀ j, j < k → ∀ u : State, Sys2Proof.core.run j s = .next u → ∀ x, ¬ Decodes u (.ldSTVx x)) →
      t.ST.toNat = s.ST.toNat - k ∧ beeps t = beeps s + min s.ST.toNat k)

/-! ## Index register and memory -/

/-- LD I, ADD I, LD F (R280 to R282): the value written to I, modulo 2^16, and nothing else; no flag. -/
def Obligations.IndexRegisterResults : Prop :=
  ∀ (s : State) (x : Nibble) (nnn : Addr12),
    encodeWord (.ldI nnn) = 0xA000#16 ||| nnn.setWidth 16 ∧
    encodeWord (.addI x) = 0xF01E#16 ||| x.setWidth 16 <<< 8 ∧
    encodeWord (.ldF x) = 0xF029#16 ||| x.setWidth 16 <<< 8 ∧
    OnlySetsIndex (exec (.ldI nnn) s) s (nnn.setWidth 16) ∧
    OnlySetsIndex (exec (.addI x) s) s (BitVec.ofNat 16 ((s.I.toNat + (s.getV x).toNat) % 65536)) ∧
    OnlySetsIndex (exec (.ldF x) s) s (BitVec.ofNat 16 (5 * (s.getV x).toNat))

/-- LD B (R283): three digits, hundreds first, that make up the value, each at most 9, at I, I + 1, I + 2; every other
byte and everything else unchanged. When I + 2 is past the memory, MemoryRange is taken and nothing is written. -/
def Obligations.BcdDigitsAreStored : Prop :=
  ∀ (s : State) (x : Nibble),
    encodeWord (.ldB x) = 0xF033#16 ||| x.setWidth 16 <<< 8 ∧
    (s.I.toNat + 2 < 4096 →
      ∃ (t : State) (h d u : Nat), exec (.ldB x) s = .next t ∧ h ≤ 2 ∧ d ≤ 9 ∧ u ≤ 9 ∧
        100 * h + 10 * d + u = (s.getV x).toNat ∧
        t.M.read s.I.toNat = BitVec.ofNat 8 h ∧ t.M.read (s.I.toNat + 1) = BitVec.ofNat 8 d ∧
        t.M.read (s.I.toNat + 2) = BitVec.ofNat 8 u ∧ SameMemoryBut s.I.toNat 3 s t ∧
        SameRegs s t ∧ t.pc = s.pc ∧ t.I = s.I ∧ SameInterface s t ∧ SameRest s t) ∧
    (4096 ≤ s.I.toNat + 2 → TakesFault (exec (.ldB x) s) s .memoryRange)

/-- LD [I], Vx (R284): V[0] to V[x] at I to I + x; every other byte and everything else unchanged. When I + x is past the
memory, MemoryRange is taken and nothing is written. -/
def Obligations.RegistersAreStored : Prop :=
  ∀ (s : State) (x : Nibble),
    encodeWord (.ldMemVx x) = 0xF055#16 ||| x.setWidth 16 <<< 8 ∧
    (s.I.toNat + x.toNat < 4096 →
      ∃ t, exec (.ldMemVx x) s = .next t ∧
        StoresBytes s.I.toNat (x.toNat + 1) (fun k => s.getV (BitVec.ofNat 4 k)) s t ∧
        SameRegs s t ∧ t.pc = s.pc ∧ t.I = s.I ∧ SameInterface s t ∧ SameRest s t) ∧
    (4096 ≤ s.I.toNat + x.toNat → TakesFault (exec (.ldMemVx x) s) s .memoryRange)

/-- LD Vx, [I] (R285): the bytes at I to I + x into V[0] to V[x]; the other registers, memory and everything else
unchanged. When I + x is past the memory, MemoryRange is taken and no register is written. -/
def Obligations.RegistersAreLoaded : Prop :=
  ∀ (s : State) (x : Nibble),
    encodeWord (.ldVxMem x) = 0xF065#16 ||| x.setWidth 16 <<< 8 ∧
    (s.I.toNat + x.toNat < 4096 →
      ∃ t, exec (.ldVxMem x) s = .next t ∧
        (∀ z : Nibble, z.toNat ≤ x.toNat → t.getV z = s.M.read (s.I.toNat + z.toNat)) ∧
        SameRegsBut (fun z => z.toNat ≤ x.toNat) s t ∧ t.pc = s.pc ∧ t.I = s.I ∧ SameMemory s t ∧
        SameInterface s t ∧ SameRest s t) ∧
    (4096 ≤ s.I.toNat + x.toNat → TakesFault (exec (.ldVxMem x) s) s .memoryRange)

/-- Round trip (R286): after a store of V[0] to V[x], a load with the same x from the same I, in any state that agrees on
I and on the stored bytes, restores V[0] to V[x]. R286 is the spec's own
derivation. -/
def Obligations.StoreThenLoadRestoresRegisters : Prop :=
  ∀ (s : State) (x : Nibble), s.I.toNat + x.toNat < 4096 →
    ∃ t, exec (.ldMemVx x) s = .next t ∧
      ∀ t' : State, t'.I = t.I → (∀ k, k ≤ x.toNat → t'.M.read (s.I.toNat + k) = t.M.read (s.I.toNat + k)) →
        ∃ u, exec (.ldVxMem x) t' = .next u ∧ ∀ z : Nibble, z.toNat ≤ x.toNat → u.getV z = s.getV z

/-! ## Reset -/

/-- The reset state (R343): Running at 0x200 with an empty stack and both timers 0, and no fault recorded. -/
def Obligations.ResetStateIsAsSpecified : Prop :=
  State.reset.run = .running ∧ State.reset.pc = 0x200 ∧ State.reset.sp = 0 ∧ State.reset.DT = 0 ∧
    State.reset.ST = 0 ∧ State.reset.faultCause = 0 ∧ State.reset.faultPc = 0 ∧ State.reset.faultOp = 0

/-- `reset(PROG)` (R340, R342): for every value of the OPEN parameters and every image of at most 0xE00 bytes, in any
state: each register at its value, the glyph table at 0x000, the image at 0x200 byte for byte, MEM_FILL elsewhere, and
the interface untouched; and both invariants hold. Of the invariants, that the word and key sample are 0 and memory is in
canonical form is the model's choice (log entry 7); of the interface, R342 speaks of the Input State and the display only,
and that the event list and the feeds stay too is the model's (log entries 5, 6, 8, 9). -/
def Obligations.ResetLoadsTheImage : Prop :=
  ∀ (s : State) (p : Config.ResetParams) (prog : List Byte), prog.length ≤ 0xE00 →
    let t := s.resetTo p prog
    (∀ a (h : a < 80), t.M.read a = p.font[a]) ∧ (∀ a (h : a < prog.length), t.M.read (0x200 + a) = prog[a]) ∧
    (∀ a, a < 4096 → 80 ≤ a → (a < 0x200 ∨ 0x200 + prog.length ≤ a) → t.M.read a = p.memFill a) ∧
    t.progSize.val = prog.length ∧ t.pc = 0x200 ∧ t.sp = 0 ∧ t.DT = 0 ∧ t.ST = 0 ∧ t.V = p.V ∧ t.I = p.I ∧ t.S = p.S ∧
    t.faultCause = 0 ∧ t.faultPc = 0 ∧ t.faultOp = 0 ∧ t.run = .running ∧ t.io = s.io ∧ Inv t ∧ FlowInv t

/-- An oversized image (R341): run is Rejected, the fault registers are 0, and every step does nothing. -/
def Obligations.OversizedImageIsRejected : Prop :=
  ∀ (s : State) (p : Config.ResetParams) (prog : List Byte), 0xE00 < prog.length →
    (s.resetTo p prog).run = .rejected ∧ (s.resetTo p prog).faultCause = 0 ∧ (s.resetTo p prog).faultPc = 0 ∧
    (s.resetTo p prog).faultOp = 0 ∧ step (s.resetTo p prog) = .next (s.resetTo p prog)

/-- With an empty image the first cycle halts at once, and changes nothing else (R345): for every value of the OPEN
parameters. R345 is the spec's own derivation. -/
def Obligations.EmptyImageHaltsAtOnce : Prop :=
  ∀ (s : State) (p : Config.ResetParams), step (s.resetTo p []) = .next { s.resetTo p [] with run := .halted }
end

