-- ==== Sys2Proof/Laws/Decode.lean ====
section
/-! SUPPORT. The fields of the three shapes of word (R101), a word put together from its fields, and the bytes of a
word. -/

namespace Sys2Proof.Laws

/-! ## The bits of the three shapes -/

theorem bit_nnn (h : Nibble) (nnn : Addr12) (i : Nat) :
    BitVec.getLsbD (h ++ nnn : Word) i = if i < 12 then nnn.getLsbD i else h.getLsbD (i - 12) :=
  (BitVec.getLsbD_append (x := h) (y := nnn) (i := i)).trans (by split <;> simp_all)

theorem bit_xnn (h x : Nibble) (nn : Byte) (i : Nat) :
    BitVec.getLsbD (h ++ x ++ nn : Word) i =
      if i < 8 then nn.getLsbD i else if i < 12 then x.getLsbD (i - 8) else h.getLsbD (i - 12) := by
  refine (BitVec.getLsbD_append (x := h ++ x) (y := nn) (i := i)).trans ?_
  rw [BitVec.getLsbD_append]
  by_cases h1 : i < 8 <;> by_cases h2 : i < 12 <;> simp [h1, h2, Nat.sub_sub] <;> omega

theorem bit_xyn (h x y n : Nibble) (i : Nat) :
    BitVec.getLsbD (h ++ x ++ y ++ n : Word) i =
      if i < 4 then n.getLsbD i else if i < 8 then y.getLsbD (i - 4)
      else if i < 12 then x.getLsbD (i - 8) else h.getLsbD (i - 12) := by
  refine (BitVec.getLsbD_append (x := h ++ x ++ y) (y := n) (i := i)).trans ?_
  rw [BitVec.getLsbD_append, BitVec.getLsbD_append]
  split_ifs <;> first | rfl | omega

/-! ## Fields of `h ‖ nnn` -/

theorem hiOf_nnn (h : Nibble) (nnn : Addr12) : hiOf (h ++ nnn) = h := by
  apply BitVec.eq_of_getLsbD_eq
  intro i hi
  simp [hiOf, bit_nnn, hi]

theorem nnnOf_nnn (h : Nibble) (nnn : Addr12) : nnnOf (h ++ nnn) = nnn := by
  apply BitVec.eq_of_getLsbD_eq
  intro i hi
  simp [nnnOf, bit_nnn, hi]

/-! ## Fields of `h ‖ x ‖ nn` -/

theorem hiOf_xnn (h x : Nibble) (nn : Byte) : hiOf (h ++ x ++ nn) = h := by
  apply BitVec.eq_of_getLsbD_eq
  intro i hi
  simp [hiOf, bit_xnn, hi, show ¬ 12 + i < 8 by omega]

theorem xOf_xnn (h x : Nibble) (nn : Byte) : xOf (h ++ x ++ nn) = x := by
  apply BitVec.eq_of_getLsbD_eq
  intro i hi
  simp [xOf, bit_xnn, hi, show 8 + i < 12 by omega]

theorem nnOf_xnn (h x : Nibble) (nn : Byte) : nnOf (h ++ x ++ nn) = nn := by
  apply BitVec.eq_of_getLsbD_eq
  intro i hi
  simp [nnOf, bit_xnn, hi]

/-! ## Fields of `h ‖ x ‖ y ‖ n` -/

theorem hiOf_xyn (h x y n : Nibble) : hiOf (h ++ x ++ y ++ n) = h := by
  apply BitVec.eq_of_getLsbD_eq
  intro i hi
  simp [hiOf, bit_xyn, hi, show ¬ 12 + i < 8 by omega, show ¬ 12 + i < 4 by omega]

theorem xOf_xyn (h x y n : Nibble) : xOf (h ++ x ++ y ++ n) = x := by
  apply BitVec.eq_of_getLsbD_eq
  intro i hi
  simp [xOf, bit_xyn, hi, show 8 + i < 12 by omega, show ¬ 8 + i < 4 by omega]

theorem yOf_xyn (h x y n : Nibble) : yOf (h ++ x ++ y ++ n) = y := by
  apply BitVec.eq_of_getLsbD_eq
  intro i hi
  simp [yOf, bit_xyn, hi, show 4 + i < 8 by omega]

theorem nOf_xyn (h x y n : Nibble) : nOf (h ++ x ++ y ++ n) = n := by
  apply BitVec.eq_of_getLsbD_eq
  intro i hi
  simp [nOf, bit_xyn, hi]

/-! ## A word from its fields -/

theorem word_nnn (w : Word) : (hiOf w ++ nnnOf w : Word) = w := by
  apply BitVec.eq_of_getLsbD_eq
  intro i hi
  rw [bit_nnn]
  split
  · simp [nnnOf, *]
  · simp [hiOf, show i - 12 < 4 by omega, show 12 + (i - 12) = i by omega]

theorem word_xnn (w : Word) : (hiOf w ++ xOf w ++ nnOf w : Word) = w := by
  apply BitVec.eq_of_getLsbD_eq
  intro i hi
  rw [bit_xnn]
  split
  · simp [nnOf, *]
  · split
    · simp [xOf, show i - 8 < 4 by omega, show 8 + (i - 8) = i by omega]
    · simp [hiOf, show i - 12 < 4 by omega, show 12 + (i - 12) = i by omega]

theorem word_xyn (w : Word) : (hiOf w ++ xOf w ++ yOf w ++ nOf w : Word) = w := by
  apply BitVec.eq_of_getLsbD_eq
  intro i hi
  rw [bit_xyn]
  split
  · simp [nOf, *]
  · split
    · simp [yOf, show i - 4 < 4 by omega, show 4 + (i - 4) = i by omega]
    · split
      · simp [xOf, show i - 8 < 4 by omega, show 8 + (i - 8) = i by omega]
      · simp [hiOf, show i - 12 < 4 by omega, show 12 + (i - 12) = i by omega]

/-- The two bytes of a word make the word (R71). -/
theorem wordOfBytes_bytesOfWord (w : Word) : wordOfBytes (w.extractLsb' 8 8) (w.extractLsb' 0 8) = w := by
  apply BitVec.eq_of_getLsbD_eq
  intro i hi
  refine (BitVec.getLsbD_append (x := w.extractLsb' 8 8) (y := w.extractLsb' 0 8) (i := i)).trans ?_
  by_cases h : i < 8
  · simp [h]
  · simp [h, show i - 8 < 8 by omega, show 8 + (i - 8) = i by omega]

/-! ## The words as the rules write them: fields shifted and joined by OR -/

theorem or_nnn (h : Nibble) (nnn : Addr12) : (h ++ nnn : Word) = h.setWidth 16 <<< 12 ||| nnn.setWidth 16 := by
  apply BitVec.eq_of_getLsbD_eq
  intro i hi
  rw [bit_nnn]
  simp only [BitVec.getLsbD_or, BitVec.getLsbD_shiftLeft, BitVec.getLsbD_setWidth]
  interval_cases i <;> simp

theorem or_xnn (h x : Nibble) (nn : Byte) :
    (h ++ x ++ nn : Word) = h.setWidth 16 <<< 12 ||| x.setWidth 16 <<< 8 ||| nn.setWidth 16 := by
  apply BitVec.eq_of_getLsbD_eq
  intro i hi
  rw [bit_xnn]
  simp only [BitVec.getLsbD_or, BitVec.getLsbD_shiftLeft, BitVec.getLsbD_setWidth]
  interval_cases i <;> simp

theorem or_xyn (h x y n : Nibble) :
    (h ++ x ++ y ++ n : Word) =
      h.setWidth 16 <<< 12 ||| x.setWidth 16 <<< 8 ||| y.setWidth 16 <<< 4 ||| n.setWidth 16 := by
  apply BitVec.eq_of_getLsbD_eq
  intro i hi
  rw [bit_xyn]
  simp only [BitVec.getLsbD_or, BitVec.getLsbD_shiftLeft, BitVec.getLsbD_setWidth]
  interval_cases i <;> simp

end Sys2Proof.Laws
end

