-- ==== Sys2Proof/Laws/Memory.lean ====
section
/-! SUPPORT. The memory store: a read after a write, what a run of writes leaves, that every operation keeps the
canonical form, and that the canonical form makes equal memories equal data. -/

namespace Sys2Proof.Laws

open Sys2Proof.Machine

/-! ## Reading after writing -/

theorem read_erase (m : Memory) (a b : Nat) :
    (Memory.erase m a).read b = if b = a then Memory.unlisted a else m.read b := by
  induction m with
  | nil => by_cases h : b = a <;> simp [Memory.erase, Memory.read, h]
  | cons c rest ih =>
    obtain ⟨k, w⟩ := c
    by_cases hk : a = k <;> by_cases hb : b = a <;> simp_all [Memory.erase, Memory.read]

theorem read_insert (m : Memory) (a b : Nat) (v : Byte) (h : ∀ c ∈ m, c.1 ≠ a) :
    (Memory.insert m a v).read b = if b = a then v else m.read b := by
  induction m with
  | nil => simp [Memory.insert, Memory.read]
  | cons c rest ih =>
    obtain ⟨k, w⟩ := c
    have hk : k ≠ a := h (k, w) (by simp)
    have ih := ih fun c hc => h c (by simp [hc])
    by_cases h1 : a < k
    · simp [Memory.insert, Memory.read, h1]
    · simp only [Memory.insert, h1, if_false, Memory.read, ih]
      by_cases hb : b = a
      · subst hb; simp [Ne.symm hk]
      · simp [hb]

theorem mem_erase (m : Memory) (a : Nat) (c : Host.Cell) : c ∈ Memory.erase m a ↔ c ∈ m ∧ c.1 ≠ a := by
  induction m with
  | nil => simp [Memory.erase]
  | cons d rest ih =>
    obtain ⟨k, w⟩ := d
    by_cases hk : a = k
    · subst hk
      simp only [Memory.erase, if_true, List.mem_cons]
      rw [ih]
      constructor
      · rintro ⟨h1, h2⟩; exact ⟨.inr h1, h2⟩
      · rintro ⟨rfl | h1, h2⟩
        · exact absurd rfl h2
        · exact ⟨h1, h2⟩
    · simp only [Memory.erase, hk, if_false, List.mem_cons, ih]
      constructor
      · rintro (rfl | ⟨h1, h2⟩)
        · exact ⟨.inl rfl, fun h => hk h.symm⟩
        · exact ⟨.inr h1, h2⟩
      · rintro ⟨rfl | h1, h2⟩
        · exact .inl rfl
        · exact .inr ⟨h1, h2⟩

/-- A read after a write (R79). -/
theorem read_write (m : Memory) (a b : Nat) (v : Byte) :
    (Memory.write m a v).read b = if b = a then v else m.read b := by
  unfold Memory.write
  split
  · rename_i h; rw [read_erase, h]
  · rw [read_insert _ _ _ _ fun c hc => ((mem_erase m a c).mp hc).2, read_erase]
    by_cases hb : b = a <;> simp [hb]

/-- What a run of writes leaves: the bytes written, at their addresses, and everything else as before. -/
theorem read_writeAll (vs : List Byte) (m : Memory) (a b : Nat) :
    (Memory.writeAll m a vs).read b =
      if a ≤ b then (vs[b - a]?).getD (m.read b) else m.read b := by
  induction vs generalizing m a with
  | nil => simp [Memory.writeAll]
  | cons v vs ih =>
    rw [Memory.writeAll, ih, read_write]
    rcases Nat.lt_trichotomy a b with h | h | h
    · have h1 : a + 1 ≤ b := h
      have h2 : b - a = (b - (a + 1)) + 1 := by omega
      simp [h1, h.le, h2, show b ≠ a by omega]
    · subst h; simp
    · simp [show ¬ a + 1 ≤ b by omega, show ¬ a ≤ b by omega, show b ≠ a by omega]

/-- A run of writes leaves every address outside it alone. -/
theorem read_writeAll_outside (vs : List Byte) (m : Memory) (a b : Nat) (h : b < a ∨ a + vs.length ≤ b) :
    (Memory.writeAll m a vs).read b = m.read b := by
  rw [read_writeAll]
  split
  · rw [List.getElem?_eq_none (by omega)]; rfl
  · rfl

/-- A run of writes leaves its own bytes. -/
theorem read_writeAll_inside (vs : List Byte) (m : Memory) (a k : Nat) (h : k < vs.length) :
    (Memory.writeAll m a vs).read (a + k) = vs[k] := by
  rw [read_writeAll]; simp [h]

theorem readAll_length (m : Memory) (a n : Nat) : (Memory.readAll m a n).length = n := by
  simp [Memory.readAll]

theorem readAll_getElem (m : Memory) (a n k : Nat) (h : k < (Memory.readAll m a n).length) :
    (Memory.readAll m a n)[k] = m.read (a + k) := by
  simp [Memory.readAll]

/-! ## The canonical form -/

theorem wfFrom_cons (lo k : Nat) (b : Byte) (rest : Memory) :
    Memory.wfFrom lo ((k, b) :: rest) = true ↔
      lo ≤ k ∧ k < 4096 ∧ b ≠ Memory.unlisted k ∧ Memory.wfFrom (k + 1) rest = true := by
  simp [Memory.wfFrom, and_assoc]

theorem wfFrom_mono (m : Memory) (lo lo' : Nat) (h : lo' ≤ lo) (hm : Memory.wfFrom lo m = true) :
    Memory.wfFrom lo' m = true := by
  cases m with
  | nil => rfl
  | cons c rest =>
    obtain ⟨k, b⟩ := c
    rw [wfFrom_cons] at hm ⊢
    exact ⟨by omega, hm.2⟩

theorem wfFrom_erase (m : Memory) (lo a : Nat) (hm : Memory.wfFrom lo m = true) :
    Memory.wfFrom lo (Memory.erase m a) = true := by
  induction m generalizing lo with
  | nil => rfl
  | cons c rest ih =>
    obtain ⟨k, b⟩ := c
    rw [wfFrom_cons] at hm
    simp only [Memory.erase]
    split
    · exact ih lo (wfFrom_mono rest (k + 1) lo (by omega) hm.2.2.2)
    · rw [wfFrom_cons]
      exact ⟨hm.1, hm.2.1, hm.2.2.1, ih _ hm.2.2.2⟩

theorem wfFrom_insert (m : Memory) (lo a : Nat) (v : Byte) (hm : Memory.wfFrom lo m = true) (hlo : lo ≤ a)
    (ha : a < 4096) (hv : v ≠ Memory.unlisted a) (hnot : ∀ c ∈ m, c.1 ≠ a) :
    Memory.wfFrom lo (Memory.insert m a v) = true := by
  induction m generalizing lo with
  | nil => simp only [Memory.insert, wfFrom_cons]; exact ⟨hlo, ha, hv, rfl⟩
  | cons c rest ih =>
    obtain ⟨k, b⟩ := c
    have hk : k ≠ a := hnot (k, b) (by simp)
    rw [wfFrom_cons] at hm
    simp only [Memory.insert]
    split
    · simp only [wfFrom_cons]
      exact ⟨hlo, ha, hv, by omega, hm.2⟩
    · rw [wfFrom_cons]
      exact ⟨hm.1, hm.2.1, hm.2.2.1, ih _ hm.2.2.2 (by omega) fun c hc => hnot c (by simp [hc])⟩

/-- A write below 4096 keeps the canonical form. -/
theorem wf_write (m : Memory) (a : Nat) (v : Byte) (hm : m.wf = true) (ha : a < 4096) :
    (Memory.write m a v).wf = true := by
  unfold Memory.write Memory.wf at *
  split
  · exact wfFrom_erase m 0 a hm
  · rename_i hv
    exact wfFrom_insert _ 0 a v (wfFrom_erase m 0 a hm) (by omega) ha hv
      fun c hc => ((mem_erase m a c).mp hc).2

/-- A run of writes below 4096 keeps the canonical form. -/
theorem wf_writeAll (vs : List Byte) (m : Memory) (a : Nat) (hm : m.wf = true) (ha : a + vs.length ≤ 4096) :
    (Memory.writeAll m a vs).wf = true := by
  induction vs generalizing m a with
  | nil => exact hm
  | cons v vs ih =>
    rw [List.length_cons] at ha
    exact ih _ _ (wf_write m a v hm (by omega)) (by omega)

theorem wfFrom_map_range' (f : Nat → Byte) (n lo : Nat) (h : lo + n ≤ 4096) :
    Memory.wfFrom lo
      (((List.range' lo n).filter fun a => f a ≠ Memory.unlisted a).map fun a => (a, f a)) = true := by
  induction n generalizing lo with
  | zero => rfl
  | succ n ih =>
    rw [List.range'_succ, List.filter_cons]
    have ih := ih (lo + 1) (by omega)
    split
    · rename_i hne
      rw [List.map_cons, wfFrom_cons]
      exact ⟨le_refl _, by omega, by simpa using hne, ih⟩
    · exact wfFrom_mono _ _ _ (by omega) ih

/-- A memory made of a function is in canonical form. -/
theorem wf_ofFun (f : Nat → Byte) : (Memory.ofFun f).wf = true := by
  unfold Memory.ofFun Memory.wf
  rw [List.range_eq_range']
  exact wfFrom_map_range' f 4096 0 (by omega)

theorem read_map_filter (f : Nat → Byte) (l : List Nat) (b : Nat) :
    Memory.read ((l.filter fun a => f a ≠ Memory.unlisted a).map fun a => (a, f a)) b =
      if b ∈ l then f b else Memory.unlisted b := by
  induction l with
  | nil => simp [Memory.read]
  | cons a l ih =>
    rw [List.filter_cons]
    by_cases hb : b = a
    · subst hb
      by_cases hf : f b = Memory.unlisted b
      · simp only [hf, ne_eq, not_true_eq_false, decide_false, Bool.false_eq_true, if_false]
        rw [ih]; simp [hf]
      · simp [hf, Memory.read]
    · have : (b ∈ a :: l) = (b ∈ l) := by simp [hb]
      split
      · rw [List.map_cons, Memory.read, if_neg hb, ih]; simp [hb]
      · rw [ih]; simp [hb]

/-- A memory made of a function reads as the function (R340). -/
theorem read_ofFun (f : Nat → Byte) (b : Nat) (h : b < 4096) : (Memory.ofFun f).read b = f b := by
  unfold Memory.ofFun
  rw [read_map_filter, if_pos (List.mem_range.mpr h)]

/-! ## Equal memories are equal data -/

theorem read_below (m : Memory) (lo b : Nat) (hm : Memory.wfFrom lo m = true) (h : b < lo) :
    m.read b = Memory.unlisted b := by
  induction m generalizing lo with
  | nil => rfl
  | cons c rest ih =>
    obtain ⟨k, w⟩ := c
    rw [wfFrom_cons] at hm
    rw [Memory.read, if_neg (by omega)]
    exact ih (k + 1) hm.2.2.2 (by omega)

theorem eq_of_read (m m' : Memory) (lo : Nat) (hm : Memory.wfFrom lo m = true)
    (hm' : Memory.wfFrom lo m' = true) (h : ∀ b, m.read b = m'.read b) : m = m' := by
  induction m generalizing m' lo with
  | nil =>
    cases m' with
    | nil => rfl
    | cons c rest =>
      obtain ⟨k, w⟩ := c
      rw [wfFrom_cons] at hm'
      exact absurd (by simpa [Memory.read] using (h k).symm) hm'.2.2.1
  | cons c rest ih =>
    obtain ⟨k, w⟩ := c
    have hc := (wfFrom_cons _ _ _ _).mp hm
    cases m' with
    | nil => exact absurd (by simpa [Memory.read] using h k) hc.2.2.1
    | cons c' rest' =>
      obtain ⟨k', w'⟩ := c'
      have hc' := (wfFrom_cons _ _ _ _).mp hm'
      have hk : k = k' := by
        rcases Nat.lt_trichotomy k k' with hlt | heq | hgt
        · have h1 := h k
          rw [Memory.read, if_pos rfl, read_below _ k' k (by rw [wfFrom_cons]; exact ⟨le_refl _, hc'.2⟩) hlt] at h1
          exact absurd h1 hc.2.2.1
        · exact heq
        · have h1 := (h k').symm
          rw [Memory.read, if_pos rfl, read_below _ k k' (by rw [wfFrom_cons]; exact ⟨le_refl _, hc.2⟩) hgt] at h1
          exact absurd h1 hc'.2.2.1
      subst hk
      have hw : w = w' := by simpa [Memory.read] using h k
      subst hw
      congr 1
      refine ih rest' (k + 1) hc.2.2.2 hc'.2.2.2 fun b => ?_
      by_cases hb : b = k
      · subst hb; rw [read_below _ _ _ hc.2.2.2 (by omega), read_below _ _ _ hc'.2.2.2 (by omega)]
      · simpa [Memory.read, hb] using h b

/-- In canonical form, memories that read alike are the same list. -/
theorem memory_ext (m m' : Memory) (hm : m.wf = true) (hm' : m'.wf = true) (h : ∀ b, m.read b = m'.read b) :
    m = m' := eq_of_read m m' 0 hm hm' h

end Sys2Proof.Laws
end

