-- ==== Sys2Proof/Laws/State.lean ====
section
/-! SUPPORT. One lemma per field per update of State, true by rfl, so that no proof unfolds a record update; and what
the accessors (`getV`, `stackEntry`) read after each update. -/

namespace Sys2Proof.Laws

open Sys2Proof.Machine

variable (s : State)


/-! ## setV -/

@[simp] theorem setV_V (x : Nibble) (v : Byte) : (s.setV x v).V = s.V.set x.toNat v x.isLt := rfl
@[simp] theorem setV_I (x : Nibble) (v : Byte) : (s.setV x v).I = s.I := rfl
@[simp] theorem setV_pc (x : Nibble) (v : Byte) : (s.setV x v).pc = s.pc := rfl
@[simp] theorem setV_sp (x : Nibble) (v : Byte) : (s.setV x v).sp = s.sp := rfl
@[simp] theorem setV_S (x : Nibble) (v : Byte) : (s.setV x v).S = s.S := rfl
@[simp] theorem setV_DT (x : Nibble) (v : Byte) : (s.setV x v).DT = s.DT := rfl
@[simp] theorem setV_ST (x : Nibble) (v : Byte) : (s.setV x v).ST = s.ST := rfl
@[simp] theorem setV_M (x : Nibble) (v : Byte) : (s.setV x v).M = s.M := rfl
@[simp] theorem setV_progSize (x : Nibble) (v : Byte) : (s.setV x v).progSize = s.progSize := rfl
@[simp] theorem setV_run (x : Nibble) (v : Byte) : (s.setV x v).run = s.run := rfl
@[simp] theorem setV_faultCause (x : Nibble) (v : Byte) : (s.setV x v).faultCause = s.faultCause := rfl
@[simp] theorem setV_faultPc (x : Nibble) (v : Byte) : (s.setV x v).faultPc = s.faultPc := rfl
@[simp] theorem setV_faultOp (x : Nibble) (v : Byte) : (s.setV x v).faultOp = s.faultOp := rfl
@[simp] theorem setV_op (x : Nibble) (v : Byte) : (s.setV x v).op = s.op := rfl
@[simp] theorem setV_K (x : Nibble) (v : Byte) : (s.setV x v).K = s.K := rfl
@[simp] theorem setV_io (x : Nibble) (v : Byte) : (s.setV x v).io = s.io := rfl
@[simp] theorem setV_stackEntry (x : Nibble) (v : Byte) (k : Nat) : (s.setV x v).stackEntry k = s.stackEntry k := rfl

/-! ## setI -/

@[simp] theorem setI_V (v : Word) : (s.setI v).V = s.V := rfl
@[simp] theorem setI_I (v : Word) : (s.setI v).I = v := rfl
@[simp] theorem setI_pc (v : Word) : (s.setI v).pc = s.pc := rfl
@[simp] theorem setI_sp (v : Word) : (s.setI v).sp = s.sp := rfl
@[simp] theorem setI_S (v : Word) : (s.setI v).S = s.S := rfl
@[simp] theorem setI_DT (v : Word) : (s.setI v).DT = s.DT := rfl
@[simp] theorem setI_ST (v : Word) : (s.setI v).ST = s.ST := rfl
@[simp] theorem setI_M (v : Word) : (s.setI v).M = s.M := rfl
@[simp] theorem setI_progSize (v : Word) : (s.setI v).progSize = s.progSize := rfl
@[simp] theorem setI_run (v : Word) : (s.setI v).run = s.run := rfl
@[simp] theorem setI_faultCause (v : Word) : (s.setI v).faultCause = s.faultCause := rfl
@[simp] theorem setI_faultPc (v : Word) : (s.setI v).faultPc = s.faultPc := rfl
@[simp] theorem setI_faultOp (v : Word) : (s.setI v).faultOp = s.faultOp := rfl
@[simp] theorem setI_op (v : Word) : (s.setI v).op = s.op := rfl
@[simp] theorem setI_K (v : Word) : (s.setI v).K = s.K := rfl
@[simp] theorem setI_io (v : Word) : (s.setI v).io = s.io := rfl
@[simp] theorem setI_getV (v : Word) (z : Nibble) : (s.setI v).getV z = s.getV z := rfl
@[simp] theorem setI_stackEntry (v : Word) (k : Nat) : (s.setI v).stackEntry k = s.stackEntry k := rfl

/-! ## setPc -/

@[simp] theorem setPc_V (v : Word) : (s.setPc v).V = s.V := rfl
@[simp] theorem setPc_I (v : Word) : (s.setPc v).I = s.I := rfl
@[simp] theorem setPc_pc (v : Word) : (s.setPc v).pc = v := rfl
@[simp] theorem setPc_sp (v : Word) : (s.setPc v).sp = s.sp := rfl
@[simp] theorem setPc_S (v : Word) : (s.setPc v).S = s.S := rfl
@[simp] theorem setPc_DT (v : Word) : (s.setPc v).DT = s.DT := rfl
@[simp] theorem setPc_ST (v : Word) : (s.setPc v).ST = s.ST := rfl
@[simp] theorem setPc_M (v : Word) : (s.setPc v).M = s.M := rfl
@[simp] theorem setPc_progSize (v : Word) : (s.setPc v).progSize = s.progSize := rfl
@[simp] theorem setPc_run (v : Word) : (s.setPc v).run = s.run := rfl
@[simp] theorem setPc_faultCause (v : Word) : (s.setPc v).faultCause = s.faultCause := rfl
@[simp] theorem setPc_faultPc (v : Word) : (s.setPc v).faultPc = s.faultPc := rfl
@[simp] theorem setPc_faultOp (v : Word) : (s.setPc v).faultOp = s.faultOp := rfl
@[simp] theorem setPc_op (v : Word) : (s.setPc v).op = s.op := rfl
@[simp] theorem setPc_K (v : Word) : (s.setPc v).K = s.K := rfl
@[simp] theorem setPc_io (v : Word) : (s.setPc v).io = s.io := rfl
@[simp] theorem setPc_getV (v : Word) (z : Nibble) : (s.setPc v).getV z = s.getV z := rfl
@[simp] theorem setPc_stackEntry (v : Word) (k : Nat) : (s.setPc v).stackEntry k = s.stackEntry k := rfl

/-! ## setDT -/

@[simp] theorem setDT_V (v : Byte) : (s.setDT v).V = s.V := rfl
@[simp] theorem setDT_I (v : Byte) : (s.setDT v).I = s.I := rfl
@[simp] theorem setDT_pc (v : Byte) : (s.setDT v).pc = s.pc := rfl
@[simp] theorem setDT_sp (v : Byte) : (s.setDT v).sp = s.sp := rfl
@[simp] theorem setDT_S (v : Byte) : (s.setDT v).S = s.S := rfl
@[simp] theorem setDT_DT (v : Byte) : (s.setDT v).DT = v := rfl
@[simp] theorem setDT_ST (v : Byte) : (s.setDT v).ST = s.ST := rfl
@[simp] theorem setDT_M (v : Byte) : (s.setDT v).M = s.M := rfl
@[simp] theorem setDT_progSize (v : Byte) : (s.setDT v).progSize = s.progSize := rfl
@[simp] theorem setDT_run (v : Byte) : (s.setDT v).run = s.run := rfl
@[simp] theorem setDT_faultCause (v : Byte) : (s.setDT v).faultCause = s.faultCause := rfl
@[simp] theorem setDT_faultPc (v : Byte) : (s.setDT v).faultPc = s.faultPc := rfl
@[simp] theorem setDT_faultOp (v : Byte) : (s.setDT v).faultOp = s.faultOp := rfl
@[simp] theorem setDT_op (v : Byte) : (s.setDT v).op = s.op := rfl
@[simp] theorem setDT_K (v : Byte) : (s.setDT v).K = s.K := rfl
@[simp] theorem setDT_io (v : Byte) : (s.setDT v).io = s.io := rfl
@[simp] theorem setDT_getV (v : Byte) (z : Nibble) : (s.setDT v).getV z = s.getV z := rfl
@[simp] theorem setDT_stackEntry (v : Byte) (k : Nat) : (s.setDT v).stackEntry k = s.stackEntry k := rfl

/-! ## setST -/

@[simp] theorem setST_V (v : Byte) : (s.setST v).V = s.V := rfl
@[simp] theorem setST_I (v : Byte) : (s.setST v).I = s.I := rfl
@[simp] theorem setST_pc (v : Byte) : (s.setST v).pc = s.pc := rfl
@[simp] theorem setST_sp (v : Byte) : (s.setST v).sp = s.sp := rfl
@[simp] theorem setST_S (v : Byte) : (s.setST v).S = s.S := rfl
@[simp] theorem setST_DT (v : Byte) : (s.setST v).DT = s.DT := rfl
@[simp] theorem setST_ST (v : Byte) : (s.setST v).ST = v := rfl
@[simp] theorem setST_M (v : Byte) : (s.setST v).M = s.M := rfl
@[simp] theorem setST_progSize (v : Byte) : (s.setST v).progSize = s.progSize := rfl
@[simp] theorem setST_run (v : Byte) : (s.setST v).run = s.run := rfl
@[simp] theorem setST_faultCause (v : Byte) : (s.setST v).faultCause = s.faultCause := rfl
@[simp] theorem setST_faultPc (v : Byte) : (s.setST v).faultPc = s.faultPc := rfl
@[simp] theorem setST_faultOp (v : Byte) : (s.setST v).faultOp = s.faultOp := rfl
@[simp] theorem setST_op (v : Byte) : (s.setST v).op = s.op := rfl
@[simp] theorem setST_K (v : Byte) : (s.setST v).K = s.K := rfl
@[simp] theorem setST_io (v : Byte) : (s.setST v).io = s.io := rfl
@[simp] theorem setST_getV (v : Byte) (z : Nibble) : (s.setST v).getV z = s.getV z := rfl
@[simp] theorem setST_stackEntry (v : Byte) (k : Nat) : (s.setST v).stackEntry k = s.stackEntry k := rfl

/-! ## setM -/

@[simp] theorem setM_V (m : Memory) : (s.setM m).V = s.V := rfl
@[simp] theorem setM_I (m : Memory) : (s.setM m).I = s.I := rfl
@[simp] theorem setM_pc (m : Memory) : (s.setM m).pc = s.pc := rfl
@[simp] theorem setM_sp (m : Memory) : (s.setM m).sp = s.sp := rfl
@[simp] theorem setM_S (m : Memory) : (s.setM m).S = s.S := rfl
@[simp] theorem setM_DT (m : Memory) : (s.setM m).DT = s.DT := rfl
@[simp] theorem setM_ST (m : Memory) : (s.setM m).ST = s.ST := rfl
@[simp] theorem setM_M (m : Memory) : (s.setM m).M = m := rfl
@[simp] theorem setM_progSize (m : Memory) : (s.setM m).progSize = s.progSize := rfl
@[simp] theorem setM_run (m : Memory) : (s.setM m).run = s.run := rfl
@[simp] theorem setM_faultCause (m : Memory) : (s.setM m).faultCause = s.faultCause := rfl
@[simp] theorem setM_faultPc (m : Memory) : (s.setM m).faultPc = s.faultPc := rfl
@[simp] theorem setM_faultOp (m : Memory) : (s.setM m).faultOp = s.faultOp := rfl
@[simp] theorem setM_op (m : Memory) : (s.setM m).op = s.op := rfl
@[simp] theorem setM_K (m : Memory) : (s.setM m).K = s.K := rfl
@[simp] theorem setM_io (m : Memory) : (s.setM m).io = s.io := rfl
@[simp] theorem setM_getV (m : Memory) (z : Nibble) : (s.setM m).getV z = s.getV z := rfl
@[simp] theorem setM_stackEntry (m : Memory) (k : Nat) : (s.setM m).stackEntry k = s.stackEntry k := rfl

/-! ## setIo -/

@[simp] theorem setIo_V (io : Interface) : (s.setIo io).V = s.V := rfl
@[simp] theorem setIo_I (io : Interface) : (s.setIo io).I = s.I := rfl
@[simp] theorem setIo_pc (io : Interface) : (s.setIo io).pc = s.pc := rfl
@[simp] theorem setIo_sp (io : Interface) : (s.setIo io).sp = s.sp := rfl
@[simp] theorem setIo_S (io : Interface) : (s.setIo io).S = s.S := rfl
@[simp] theorem setIo_DT (io : Interface) : (s.setIo io).DT = s.DT := rfl
@[simp] theorem setIo_ST (io : Interface) : (s.setIo io).ST = s.ST := rfl
@[simp] theorem setIo_M (io : Interface) : (s.setIo io).M = s.M := rfl
@[simp] theorem setIo_progSize (io : Interface) : (s.setIo io).progSize = s.progSize := rfl
@[simp] theorem setIo_run (io : Interface) : (s.setIo io).run = s.run := rfl
@[simp] theorem setIo_faultCause (io : Interface) : (s.setIo io).faultCause = s.faultCause := rfl
@[simp] theorem setIo_faultPc (io : Interface) : (s.setIo io).faultPc = s.faultPc := rfl
@[simp] theorem setIo_faultOp (io : Interface) : (s.setIo io).faultOp = s.faultOp := rfl
@[simp] theorem setIo_op (io : Interface) : (s.setIo io).op = s.op := rfl
@[simp] theorem setIo_K (io : Interface) : (s.setIo io).K = s.K := rfl
@[simp] theorem setIo_io (io : Interface) : (s.setIo io).io = io := rfl
@[simp] theorem setIo_getV (io : Interface) (z : Nibble) : (s.setIo io).getV z = s.getV z := rfl
@[simp] theorem setIo_stackEntry (io : Interface) (k : Nat) : (s.setIo io).stackEntry k = s.stackEntry k := rfl

/-! ## emit -/

@[simp] theorem emit_V (e : Event) : (s.emit e).V = s.V := rfl
@[simp] theorem emit_I (e : Event) : (s.emit e).I = s.I := rfl
@[simp] theorem emit_pc (e : Event) : (s.emit e).pc = s.pc := rfl
@[simp] theorem emit_sp (e : Event) : (s.emit e).sp = s.sp := rfl
@[simp] theorem emit_S (e : Event) : (s.emit e).S = s.S := rfl
@[simp] theorem emit_DT (e : Event) : (s.emit e).DT = s.DT := rfl
@[simp] theorem emit_ST (e : Event) : (s.emit e).ST = s.ST := rfl
@[simp] theorem emit_M (e : Event) : (s.emit e).M = s.M := rfl
@[simp] theorem emit_progSize (e : Event) : (s.emit e).progSize = s.progSize := rfl
@[simp] theorem emit_run (e : Event) : (s.emit e).run = s.run := rfl
@[simp] theorem emit_faultCause (e : Event) : (s.emit e).faultCause = s.faultCause := rfl
@[simp] theorem emit_faultPc (e : Event) : (s.emit e).faultPc = s.faultPc := rfl
@[simp] theorem emit_faultOp (e : Event) : (s.emit e).faultOp = s.faultOp := rfl
@[simp] theorem emit_op (e : Event) : (s.emit e).op = s.op := rfl
@[simp] theorem emit_K (e : Event) : (s.emit e).K = s.K := rfl
@[simp] theorem emit_io (e : Event) : (s.emit e).io = { s.io with events := e :: s.io.events } := rfl
@[simp] theorem emit_getV (e : Event) (z : Nibble) : (s.emit e).getV z = s.getV z := rfl
@[simp] theorem emit_stackEntry (e : Event) (k : Nat) : (s.emit e).stackEntry k = s.stackEntry k := rfl

/-! ## takeFault -/

@[simp] theorem takeFault_V (c : Cause) (pci op : Word) : (s.takeFault c pci op).V = s.V := rfl
@[simp] theorem takeFault_I (c : Cause) (pci op : Word) : (s.takeFault c pci op).I = s.I := rfl
@[simp] theorem takeFault_pc (c : Cause) (pci op : Word) : (s.takeFault c pci op).pc = pci := rfl
@[simp] theorem takeFault_sp (c : Cause) (pci op : Word) : (s.takeFault c pci op).sp = s.sp := rfl
@[simp] theorem takeFault_S (c : Cause) (pci op : Word) : (s.takeFault c pci op).S = s.S := rfl
@[simp] theorem takeFault_DT (c : Cause) (pci op : Word) : (s.takeFault c pci op).DT = s.DT := rfl
@[simp] theorem takeFault_ST (c : Cause) (pci op : Word) : (s.takeFault c pci op).ST = s.ST := rfl
@[simp] theorem takeFault_M (c : Cause) (pci op : Word) : (s.takeFault c pci op).M = s.M := rfl
@[simp] theorem takeFault_progSize (c : Cause) (pci op : Word) : (s.takeFault c pci op).progSize = s.progSize := rfl
@[simp] theorem takeFault_run (c : Cause) (pci op : Word) : (s.takeFault c pci op).run = .faulted := rfl
@[simp] theorem takeFault_faultCause (c : Cause) (pci op : Word) : (s.takeFault c pci op).faultCause = c.code := rfl
@[simp] theorem takeFault_faultPc (c : Cause) (pci op : Word) : (s.takeFault c pci op).faultPc = pci := rfl
@[simp] theorem takeFault_faultOp (c : Cause) (pci op : Word) : (s.takeFault c pci op).faultOp = op := rfl
@[simp] theorem takeFault_op (c : Cause) (pci op : Word) : (s.takeFault c pci op).op = s.op := rfl
@[simp] theorem takeFault_K (c : Cause) (pci op : Word) : (s.takeFault c pci op).K = s.K := rfl
@[simp] theorem takeFault_io (c : Cause) (pci op : Word) : (s.takeFault c pci op).io = s.io := rfl
@[simp] theorem takeFault_getV (c : Cause) (pci op : Word) (z : Nibble) : (s.takeFault c pci op).getV z = s.getV z := rfl
@[simp] theorem takeFault_stackEntry (c : Cause) (pci op : Word) (k : Nat) : (s.takeFault c pci op).stackEntry k = s.stackEntry k := rfl

/-! ## raise -/

@[simp] theorem raise_V (c : Cause) : (s.raise c).V = s.V := rfl
@[simp] theorem raise_I (c : Cause) : (s.raise c).I = s.I := rfl
@[simp] theorem raise_pc (c : Cause) : (s.raise c).pc = s.pc - 2 := rfl
@[simp] theorem raise_sp (c : Cause) : (s.raise c).sp = s.sp := rfl
@[simp] theorem raise_S (c : Cause) : (s.raise c).S = s.S := rfl
@[simp] theorem raise_DT (c : Cause) : (s.raise c).DT = s.DT := rfl
@[simp] theorem raise_ST (c : Cause) : (s.raise c).ST = s.ST := rfl
@[simp] theorem raise_M (c : Cause) : (s.raise c).M = s.M := rfl
@[simp] theorem raise_progSize (c : Cause) : (s.raise c).progSize = s.progSize := rfl
@[simp] theorem raise_run (c : Cause) : (s.raise c).run = .faulted := rfl
@[simp] theorem raise_faultCause (c : Cause) : (s.raise c).faultCause = c.code := rfl
@[simp] theorem raise_faultPc (c : Cause) : (s.raise c).faultPc = s.pc - 2 := rfl
@[simp] theorem raise_faultOp (c : Cause) : (s.raise c).faultOp = s.op := rfl
@[simp] theorem raise_op (c : Cause) : (s.raise c).op = s.op := rfl
@[simp] theorem raise_K (c : Cause) : (s.raise c).K = s.K := rfl
@[simp] theorem raise_io (c : Cause) : (s.raise c).io = s.io := rfl
@[simp] theorem raise_getV (c : Cause) (z : Nibble) : (s.raise c).getV z = s.getV z := rfl
@[simp] theorem raise_stackEntry (c : Cause) (k : Nat) : (s.raise c).stackEntry k = s.stackEntry k := rfl

/-! ## sampleKeys -/

@[simp] theorem sampleKeys_V : (s.sampleKeys).V = s.V := rfl
@[simp] theorem sampleKeys_I : (s.sampleKeys).I = s.I := rfl
@[simp] theorem sampleKeys_pc : (s.sampleKeys).pc = s.pc := rfl
@[simp] theorem sampleKeys_sp : (s.sampleKeys).sp = s.sp := rfl
@[simp] theorem sampleKeys_S : (s.sampleKeys).S = s.S := rfl
@[simp] theorem sampleKeys_DT : (s.sampleKeys).DT = s.DT := rfl
@[simp] theorem sampleKeys_ST : (s.sampleKeys).ST = s.ST := rfl
@[simp] theorem sampleKeys_M : (s.sampleKeys).M = s.M := rfl
@[simp] theorem sampleKeys_progSize : (s.sampleKeys).progSize = s.progSize := rfl
@[simp] theorem sampleKeys_run : (s.sampleKeys).run = s.run := rfl
@[simp] theorem sampleKeys_faultCause : (s.sampleKeys).faultCause = s.faultCause := rfl
@[simp] theorem sampleKeys_faultPc : (s.sampleKeys).faultPc = s.faultPc := rfl
@[simp] theorem sampleKeys_faultOp : (s.sampleKeys).faultOp = s.faultOp := rfl
@[simp] theorem sampleKeys_op : (s.sampleKeys).op = s.op := rfl
@[simp] theorem sampleKeys_K : (s.sampleKeys).K = s.io.nextKeys := rfl
@[simp] theorem sampleKeys_io : (s.sampleKeys).io = { s.io with keys := s.io.nextKeys, keyFeed := s.io.keyFeed.tail } := rfl
@[simp] theorem sampleKeys_getV (z : Nibble) : (s.sampleKeys).getV z = s.getV z := rfl
@[simp] theorem sampleKeys_stackEntry (k : Nat) : (s.sampleKeys).stackEntry k = s.stackEntry k := rfl

/-! ## advance -/

@[simp] theorem advance_V (w : Word) : (s.advance w).V = s.V := rfl
@[simp] theorem advance_I (w : Word) : (s.advance w).I = s.I := rfl
@[simp] theorem advance_pc (w : Word) : (s.advance w).pc = s.pc + 2 := rfl
@[simp] theorem advance_sp (w : Word) : (s.advance w).sp = s.sp := rfl
@[simp] theorem advance_S (w : Word) : (s.advance w).S = s.S := rfl
@[simp] theorem advance_DT (w : Word) : (s.advance w).DT = s.DT := rfl
@[simp] theorem advance_ST (w : Word) : (s.advance w).ST = s.ST := rfl
@[simp] theorem advance_M (w : Word) : (s.advance w).M = s.M := rfl
@[simp] theorem advance_progSize (w : Word) : (s.advance w).progSize = s.progSize := rfl
@[simp] theorem advance_run (w : Word) : (s.advance w).run = s.run := rfl
@[simp] theorem advance_faultCause (w : Word) : (s.advance w).faultCause = s.faultCause := rfl
@[simp] theorem advance_faultPc (w : Word) : (s.advance w).faultPc = s.faultPc := rfl
@[simp] theorem advance_faultOp (w : Word) : (s.advance w).faultOp = s.faultOp := rfl
@[simp] theorem advance_op (w : Word) : (s.advance w).op = w := rfl
@[simp] theorem advance_K (w : Word) : (s.advance w).K = s.K := rfl
@[simp] theorem advance_io (w : Word) : (s.advance w).io = s.io := rfl
@[simp] theorem advance_getV (w : Word) (z : Nibble) : (s.advance w).getV z = s.getV z := rfl
@[simp] theorem advance_stackEntry (w : Word) (k : Nat) : (s.advance w).stackEntry k = s.stackEntry k := rfl

/-! ## halt -/

@[simp] theorem halt_V : (s.halt).V = s.V := rfl
@[simp] theorem halt_I : (s.halt).I = s.I := rfl
@[simp] theorem halt_pc : (s.halt).pc = s.pc := rfl
@[simp] theorem halt_sp : (s.halt).sp = s.sp := rfl
@[simp] theorem halt_S : (s.halt).S = s.S := rfl
@[simp] theorem halt_DT : (s.halt).DT = s.DT := rfl
@[simp] theorem halt_ST : (s.halt).ST = s.ST := rfl
@[simp] theorem halt_M : (s.halt).M = s.M := rfl
@[simp] theorem halt_progSize : (s.halt).progSize = s.progSize := rfl
@[simp] theorem halt_run : (s.halt).run = .halted := rfl
@[simp] theorem halt_faultCause : (s.halt).faultCause = s.faultCause := rfl
@[simp] theorem halt_faultPc : (s.halt).faultPc = s.faultPc := rfl
@[simp] theorem halt_faultOp : (s.halt).faultOp = s.faultOp := rfl
@[simp] theorem halt_op : (s.halt).op = s.op := rfl
@[simp] theorem halt_K : (s.halt).K = s.K := rfl
@[simp] theorem halt_io : (s.halt).io = s.io := rfl
@[simp] theorem halt_getV (z : Nibble) : (s.halt).getV z = s.getV z := rfl
@[simp] theorem halt_stackEntry (k : Nat) : (s.halt).stackEntry k = s.stackEntry k := rfl

/-! ## clearLatches -/

@[simp] theorem clearLatches_V : (s.clearLatches).V = s.V := rfl
@[simp] theorem clearLatches_I : (s.clearLatches).I = s.I := rfl
@[simp] theorem clearLatches_pc : (s.clearLatches).pc = s.pc := rfl
@[simp] theorem clearLatches_sp : (s.clearLatches).sp = s.sp := rfl
@[simp] theorem clearLatches_S : (s.clearLatches).S = s.S := rfl
@[simp] theorem clearLatches_DT : (s.clearLatches).DT = s.DT := rfl
@[simp] theorem clearLatches_ST : (s.clearLatches).ST = s.ST := rfl
@[simp] theorem clearLatches_M : (s.clearLatches).M = s.M := rfl
@[simp] theorem clearLatches_progSize : (s.clearLatches).progSize = s.progSize := rfl
@[simp] theorem clearLatches_run : (s.clearLatches).run = s.run := rfl
@[simp] theorem clearLatches_faultCause : (s.clearLatches).faultCause = s.faultCause := rfl
@[simp] theorem clearLatches_faultPc : (s.clearLatches).faultPc = s.faultPc := rfl
@[simp] theorem clearLatches_faultOp : (s.clearLatches).faultOp = s.faultOp := rfl
@[simp] theorem clearLatches_op : (s.clearLatches).op = 0 := rfl
@[simp] theorem clearLatches_K : (s.clearLatches).K = 0 := rfl
@[simp] theorem clearLatches_io : (s.clearLatches).io = s.io := rfl
@[simp] theorem clearLatches_getV (z : Nibble) : (s.clearLatches).getV z = s.getV z := rfl
@[simp] theorem clearLatches_stackEntry (k : Nat) : (s.clearLatches).stackEntry k = s.stackEntry k := rfl

/-! ## Reading a register after a write -/

theorem getV_setV (x z : Nibble) (v : Byte) :
    (s.setV x v).getV z = if z = x then v else s.getV z := by
  have h : x.toNat = z.toNat ↔ z = x :=
    ⟨fun h => (BitVec.eq_of_toNat_eq h).symm, fun h => by rw [h]⟩
  simp only [State.getV, State.setV, Vector.getElem_set, h]

@[simp] theorem getV_setV_same (x : Nibble) (v : Byte) : (s.setV x v).getV x = v := by
  simp [getV_setV]

theorem getV_setV_ne (x z : Nibble) (v : Byte) (h : z ≠ x) : (s.setV x v).getV z = s.getV z := by
  simp [getV_setV, h]

/-- Two states with the same registers have the same register file. -/
theorem V_ext (t : State) (h : ∀ z, t.getV z = s.getV z) : t.V = s.V := by
  apply Vector.ext
  intro i hi
  have := h (BitVec.ofNat 4 i)
  simpa [State.getV, Nat.mod_eq_of_lt (show i < 16 from hi)] using this

/-! ## A conditional skip -/

theorem skipIf_eq (c : Bool) : s.skipIf c = s.setPc (if c then s.pc + 2 else s.pc) := by
  cases c <;> rfl

end Sys2Proof.Laws
end

