-- ==== Sys2Proof/Laws/Ops.lean ====
section
/-! SUPPORT. One lemma per shared operation: everything it can do, for later proofs to cite. -/

namespace Sys2Proof.Laws

open Sys2Proof.Machine

/-! ## Registers written from a list -/

/-- A run of register writes changes the register file and nothing else. -/
theorem setVsFrom_shape (vs : List Byte) (s : State) (k : Nat) :
    ∃ V', s.setVsFrom k vs = { s with V := V' } := by
  induction vs generalizing s k with
  | nil => exact ⟨s.V, rfl⟩
  | cons v vs ih =>
    obtain ⟨V', h⟩ := ih (s.setV (BitVec.ofNat 4 k) v) (k + 1)
    exact ⟨V', by rw [State.setVsFrom, h]; rfl⟩

/-- What a run of register writes leaves in each register. -/
theorem getV_setVsFrom (vs : List Byte) (s : State) (k : Nat) (z : Nibble) (h : k + vs.length ≤ 16) :
    (s.setVsFrom k vs).getV z =
      if k ≤ z.toNat then (vs[z.toNat - k]?).getD (s.getV z) else s.getV z := by
  induction vs generalizing s k with
  | nil => simp [State.setVsFrom]
  | cons v vs ih =>
    rw [List.length_cons] at h
    rw [State.setVsFrom, ih _ _ (by omega), getV_setV]
    have hz : z = BitVec.ofNat 4 k ↔ z.toNat = k := by
      constructor
      · intro hz; rw [hz, BitVec.toNat_ofNat]; omega
      · intro hz; apply BitVec.eq_of_toNat_eq; rw [BitVec.toNat_ofNat]; omega
    rcases Nat.lt_trichotomy k z.toNat with h1 | h1 | h1
    · have h2 : z.toNat - k = (z.toNat - (k + 1)) + 1 := by omega
      simp [hz, show k + 1 ≤ z.toNat from h1, h1.le, h2, show ¬ z.toNat = k by omega]
    · simp [hz, h1.symm]
    · simp [hz, show ¬ k + 1 ≤ z.toNat by omega, show ¬ k ≤ z.toNat by omega, show ¬ z.toNat = k by omega]

theorem regsTo_length (s : State) (x : Nibble) : (s.regsTo x).length = x.toNat + 1 := by
  simp [State.regsTo]

theorem regsTo_getElem (s : State) (x : Nibble) (k : Nat) (h : k < (s.regsTo x).length) :
    (s.regsTo x)[k] = s.getV (BitVec.ofNat 4 k) := by
  simp [State.regsTo]

theorem regsTo_congr (s t : State) (x : Nibble) (h : ∀ z, t.getV z = s.getV z) : t.regsTo x = s.regsTo x := by
  simp [State.regsTo, h]

/-! ## The stack -/

theorem stackEntry_eq (s : State) (k : Nat) (h : 1 ≤ k ∧ k ≤ 16) :
    s.stackEntry k = some (s.S[k - 1]'(by omega)) := by
  simp [State.stackEntry, h]

theorem sp_succ (s : State) (h : s.sp.toNat < 16) : (s.sp + 1).toNat = s.sp.toNat + 1 := by
  rw [BitVec.toNat_add]; simp; omega

theorem sp_pred (s : State) (h : s.sp ≠ 0) : (s.sp - 1).toNat = s.sp.toNat - 1 := by
  have : s.sp.toNat ≠ 0 := fun h' => h (BitVec.eq_of_toNat_eq (by simpa using h'))
  rw [BitVec.toNat_sub]; simp; have := s.sp.isLt; omega

/-- A push completes exactly when the entry it writes exists, and then it writes sp and that entry. -/
theorem push_cases (s : State) (v : Word) :
    (s.sp.toNat < 16 ∧ ∃ h, s.push v = some { s with sp := s.sp + 1, S := s.S.set s.sp.toNat v h }) ∨
    (16 ≤ s.sp.toNat ∧ s.push v = none) := by
  unfold State.push
  by_cases h : s.sp.toNat < 16
  · left
    refine ⟨h, h, ?_⟩
    have h1 := sp_succ s h
    simp only [h1]
    rw [dif_pos (by omega)]
    simp
  · right
    refine ⟨by omega, dif_neg ?_⟩
    rw [BitVec.toNat_add]; simp; have := s.sp.isLt; omega

/-- The entries after a push: the pushed value on top, the others as before. -/
theorem push_stackEntry (s t : State) (v : Word) (h : s.push v = some t) (k : Nat) :
    t.stackEntry k = if k = s.sp.toNat + 1 then some v else s.stackEntry k := by
  obtain ⟨h1, h2, h3⟩ | ⟨_, h3⟩ := push_cases s v
  · rw [h3] at h
    obtain rfl := Option.some.inj h
    unfold State.stackEntry
    by_cases hk : 1 ≤ k ∧ k ≤ 16
    · simp only [hk, and_self, dif_pos, Vector.getElem_set]
      by_cases he : k = s.sp.toNat + 1
      · simp [he]
      · simp [he, show ¬ s.sp.toNat = k - 1 by omega]
    · rw [dif_neg hk, if_neg (by omega), dif_neg hk]
  · rw [h3] at h; exact absurd h (by simp)

/-- A pop completes exactly when the entry it reads exists. -/
theorem pop_cases (s : State) :
    (∃ h : 1 ≤ s.sp.toNat ∧ s.sp.toNat ≤ 16,
      s.pop = some { s with pc := s.S[s.sp.toNat - 1]'(by omega), sp := s.sp - 1 }) ∨
    (¬ (1 ≤ s.sp.toNat ∧ s.sp.toNat ≤ 16) ∧ s.pop = none) := by
  unfold State.pop State.stackEntry
  by_cases h : 1 ≤ s.sp.toNat ∧ s.sp.toNat ≤ 16
  · left; refine ⟨h, ?_⟩; rw [dif_pos h]
  · right; refine ⟨h, ?_⟩; rw [dif_neg h]

/-! ## Range checks -/

theorem rangeOk_iff (base count : Nat) : rangeOk base count = true ↔ ∀ k, k < count → base + k < 4096 := by
  unfold rangeOk
  rw [Bool.or_eq_true, beq_iff_eq, decide_eq_true_eq, show Config.memSize = 4096 from rfl]
  constructor
  · intro h k hk; omega
  · intro h
    by_cases hc : count = 0
    · exact .inl hc
    · have := h (count - 1) (by omega); right; omega

/-- A range check lets the effect through, or takes MemoryRange. -/
theorem checkRange_cases (base count : Nat) (s : State) (f : State → State) :
    ((∀ k, k < count → base + k < 4096) ∧ checkRange base count s f = .next (f s)) ∨
    ((∃ k, k < count ∧ 4096 ≤ base + k) ∧ checkRange base count s f = .next (s.raise .memoryRange)) := by
  unfold checkRange
  by_cases h : rangeOk base count = true
  · exact .inl ⟨(rangeOk_iff _ _).mp h, by rw [if_pos h]⟩
  · refine .inr ⟨?_, by rw [if_neg h]⟩
    rw [rangeOk_iff] at h
    push Not at h
    simpa using h

/-! ## Flag and result -/

/-- What a flag-writing operation leaves in each register (R200). -/
theorem getV_flagThenResult (flag result : Byte → Byte → Byte) (x y z : Nibble) (s : State) :
    (flagThenResult flag result x y s).getV z =
      if z = x then
        result (if x = VF then flag (s.getV x) (s.getV y) else s.getV x)
          (if y = VF then flag (s.getV x) (s.getV y) else s.getV y)
      else if z = VF then flag (s.getV x) (s.getV y) else s.getV z := by
  simp only [flagThenResult, getV_setV]

/-- A flag-writing operation changes the register file and nothing else. -/
theorem flagThenResult_shape (flag result : Byte → Byte → Byte) (x y : Nibble) (s : State) :
    ∃ V', flagThenResult flag result x y s = { s with V := V' } := ⟨_, rfl⟩

/-! ## The key scan -/

/-- The scan of R253 leaves the highest key held, and none when none is held. -/
theorem scanKeys_spec (s : State) :
    (s.scanKeys = none ∧ ∀ j : Nibble, s.keyHeld j = false) ∨
    ∃ k, s.scanKeys = some k ∧ s.keyHeld k = true ∧ ∀ j : Nibble, k.toNat < j.toNat → s.keyHeld j = false := by
  have main : ∀ n, n ≤ 16 →
      (((List.range n).foldl (fun found k => if s.K.getLsbD k then some (BitVec.ofNat 4 k) else found)
          (none : Option Nibble)) = none ∧ ∀ j : Nibble, j.toNat < n → s.keyHeld j = false) ∨
      ∃ k : Nibble, ((List.range n).foldl (fun found k => if s.K.getLsbD k then some (BitVec.ofNat 4 k) else found)
          (none : Option Nibble)) = some k ∧ s.keyHeld k = true ∧
        ∀ j : Nibble, j.toNat < n → k.toNat < j.toNat → s.keyHeld j = false := by
    intro n
    induction n with
    | zero => intro _; left; simp
    | succ n ih =>
      intro hn
      have ih := ih (by omega)
      rw [List.range_succ, List.foldl_append]
      simp only [List.foldl_cons, List.foldl_nil]
      have hto : (BitVec.ofNat 4 n).toNat = n := by rw [BitVec.toNat_ofNat]; omega
      by_cases hk : s.K.getLsbD n = true
      · right
        refine ⟨BitVec.ofNat 4 n, by rw [if_pos hk], ?_, ?_⟩
        · rw [State.keyHeld, hto]; exact hk
        · intro j hj hlt; rw [hto] at hlt; omega
      · rw [if_neg hk]
        have hn' : ∀ j : Nibble, j.toNat = n → s.keyHeld j = false := by
          intro j hj; rw [State.keyHeld, hj]; simpa using hk
        rcases ih with ⟨h1, h2⟩ | ⟨k, h1, h2, h3⟩
        · left
          refine ⟨h1, fun j hj => ?_⟩
          by_cases hj' : j.toNat = n
          · exact hn' j hj'
          · exact h2 j (by omega)
        · right
          refine ⟨k, h1, h2, fun j hj hlt => ?_⟩
          by_cases hj' : j.toNat = n
          · exact hn' j hj'
          · exact h3 j (by omega) hlt
  rcases main 16 (le_refl _) with ⟨h1, h2⟩ | ⟨k, h1, h2, h3⟩
  · exact .inl ⟨h1, fun j => h2 j j.isLt⟩
  · exact .inr ⟨k, h1, h2, fun j hlt => h3 j j.isLt hlt⟩

/-- A key index is the register's value, up to 0xF (R250). -/
theorem keyIndex_cases (v : Byte) :
    (v.toNat ≤ 0xF ∧ ∃ k, keyIndex v = some k ∧ k.toNat = v.toNat) ∨ (0xF < v.toNat ∧ keyIndex v = none) := by
  unfold keyIndex
  by_cases h : v.toNat ≤ 0xF
  · refine .inl ⟨h, v.setWidth 4, by rw [if_pos h], ?_⟩
    rw [BitVec.toNat_setWidth]; omega
  · exact .inr ⟨by omega, by rw [if_neg h]⟩

/-! ## The display -/

/-- One set bit of a sprite changes VF and the interface, and nothing else. -/
theorem drawPixel_shape (p : Nat × Nat) (s : State) :
    ∃ V' io', drawPixel p s = { s with V := V', io := io' } := ⟨_, _, rfl⟩

theorem drawPixels_shape (ps : List (Nat × Nat)) (s : State) :
    ∃ V' io', drawPixels ps s = { s with V := V', io := io' } := by
  induction ps generalizing s with
  | nil => exact ⟨s.V, s.io, rfl⟩
  | cons p ps ih =>
    obtain ⟨V1, io1, h1⟩ := drawPixel_shape p s
    obtain ⟨V2, io2, h2⟩ := ih (drawPixel p s)
    exact ⟨V2, io2, by rw [drawPixels, List.foldl_cons, ← drawPixels, h2, h1]⟩

theorem afterPixel_events (io : Interface) (x y : Nat) : (io.afterPixel x y).events = io.events := by
  unfold Interface.afterPixel; split <;> try rfl
  split <;> rfl

theorem afterPixel_surface (io : Interface) (x y : Nat) : (io.afterPixel x y).surface = io.surface := by
  unfold Interface.afterPixel; split <;> try rfl
  split <;> rfl

/-- One set bit: the two transactions, VF set if the pixel was on, every other register as before (R232). -/
theorem drawPixel_spec (p : Nat × Nat) (s : State) :
    (drawPixel p s).io.events = .setPixel p.1 p.2 (!s.io.pixelAnswer p.1 p.2) ::
        .getPixel p.1 p.2 (s.io.pixelAnswer p.1 p.2) :: s.io.events ∧
    (drawPixel p s).io.surface = s.io.surface ∧
    (∀ z, (drawPixel p s).getV z = if z = VF ∧ s.io.pixelAnswer p.1 p.2 = true then 1 else s.getV z) := by
  refine ⟨?_, ?_, ?_⟩
  · simp [drawPixel, State.getPixel, State.setPixel, afterPixel_events]
  · simp [drawPixel, State.getPixel, State.setPixel, afterPixel_surface]
  · intro z
    by_cases hz : z = VF <;> cases h : s.io.pixelAnswer p.1 p.2 <;>
      simp [drawPixel, State.getPixel, State.setPixel, getV_setV, hz, h]

/-- The set bits of a sprite, in turn: one answer and two transactions each, VF set if an answer was true, every other
register as before (R232). -/
theorem drawPixels_spec (ps : List (Nat × Nat)) (s : State) :
    ∃ answers : List Bool, answers.length = ps.length ∧
      (drawPixels ps s).io.events = ((ps.zip answers).flatMap fun q =>
        [Event.getPixel q.1.1 q.1.2 q.2, Event.setPixel q.1.1 q.1.2 (!q.2)]).reverse ++ s.io.events ∧
      (drawPixels ps s).io.surface = s.io.surface ∧
      (∀ z, (drawPixels ps s).getV z = if z = VF ∧ true ∈ answers then 1 else s.getV z) := by
  induction ps generalizing s with
  | nil => exact ⟨[], rfl, rfl, rfl, fun z => by simp [drawPixels]⟩
  | cons p ps ih =>
    obtain ⟨h1, h2, h3⟩ := drawPixel_spec p s
    obtain ⟨as, a1, a2, a3, a4⟩ := ih (drawPixel p s)
    refine ⟨s.io.pixelAnswer p.1 p.2 :: as, by simp [a1], ?_, a3.trans h2, ?_⟩
    · show (drawPixels ps (drawPixel p s)).io.events = _
      rw [a2, h1]; simp
    · intro z
      show (drawPixels ps (drawPixel p s)).getV z = _
      rw [a4, h3]
      by_cases hz : z = VF <;> by_cases ha : true ∈ as <;> cases hp : s.io.pixelAnswer p.1 p.2 <;> simp [hz, ha]

/-- A pixel on the surface keeps what was last written to it (R64). -/
theorem kept_surface (io : Interface) (w h : Nat) (hs : io.surface = some (w, h)) (p : Nat × Nat)
    (hp : p.1 < w ∧ p.2 < h) : io.kept p.1 p.2 = lastPixel p.1 p.2 io.events := by
  simp [Interface.kept, hs, onSurface, hp.1, hp.2]

/-- One set bit of a sprite on the surface: the display keeps the opposite of the answer, which is the value kept before
if one was; every other pixel is kept as it was (R64, R232). -/
theorem drawPixel_kept (p : Nat × Nat) (s : State) (w h : Nat) (hs : s.io.surface = some (w, h))
    (hp : p.1 < w ∧ p.2 < h) :
    (drawPixel p s).io.kept p.1 p.2 = some (!s.io.pixelAnswer p.1 p.2) ∧
    (∀ q : Nat × Nat, q ≠ p → (drawPixel p s).io.kept q.1 q.2 = s.io.kept q.1 q.2) ∧
    (∀ b, s.io.kept p.1 p.2 = some b → s.io.pixelAnswer p.1 p.2 = b) := by
  obtain ⟨h1, h2, _⟩ := drawPixel_spec p s
  refine ⟨?_, ?_, ?_⟩
  · rw [kept_surface _ w h (h2.trans hs) p hp, h1]; simp [lastPixel]
  · intro q hq
    have hne : ¬ (q.1 = p.1 ∧ q.2 = p.2) := fun ⟨a, b⟩ => hq (Prod.ext a b)
    unfold Interface.kept
    rw [h2, h1]
    simp [lastPixel, hne]
  · intro b hb
    rw [Interface.pixelAnswer, hb]

/-- The set bits of a sprite on the surface, no pixel twice: for each pixel the answer given, the opposite of it kept
after, and VF set if one was true. -/
theorem drawPixels_kept (ps : List (Nat × Nat)) (s : State) (w h : Nat) (hs : s.io.surface = some (w, h))
    (hp : ∀ p ∈ ps, p.1 < w ∧ p.2 < h) (hnd : ps.Nodup) :
    ∃ a : Nat × Nat → Bool, (∀ p ∈ ps, (drawPixels ps s).io.kept p.1 p.2 = some (!a p)) ∧
      (∀ q, q ∉ ps → (drawPixels ps s).io.kept q.1 q.2 = s.io.kept q.1 q.2) ∧
      (∀ p ∈ ps, ∀ b, s.io.kept p.1 p.2 = some b → a p = b) ∧
      ((drawPixels ps s).getV VF = if ∃ p ∈ ps, a p = true then 1 else s.getV VF) := by
  induction ps generalizing s with
  | nil => exact ⟨fun _ => false, by simp, fun _ _ => rfl, by simp, by simp [drawPixels]⟩
  | cons p ps ih =>
    rw [List.nodup_cons] at hnd
    have hpp := hp p (by simp)
    obtain ⟨k1, k2, k3⟩ := drawPixel_kept p s w h hs hpp
    obtain ⟨_, d2, d3⟩ := drawPixel_spec p s
    obtain ⟨a, a1, a2, a3, a4⟩ := ih (drawPixel p s) (d2.trans hs) (fun q hq => hp q (by simp [hq])) hnd.2
    have hd : drawPixels (p :: ps) s = drawPixels ps (drawPixel p s) := rfl
    rw [hd]
    have hne : ∀ q ∈ ps, q ≠ p := fun q hq e => hnd.1 (e ▸ hq)
    refine ⟨fun q => if q = p then s.io.pixelAnswer p.1 p.2 else a q, ?_, ?_, ?_, ?_⟩
    · intro q hq
      rcases List.mem_cons.mp hq with rfl | hq
      · rw [a2 _ hnd.1, k1]; simp
      · rw [a1 q hq]; simp [hne q hq]
    · intro q hq
      rw [List.mem_cons, not_or] at hq
      rw [a2 q hq.2, k2 q hq.1]
    · intro q hq b hb
      rcases List.mem_cons.mp hq with rfl | hq
      · simp [k3 b hb]
      · simp only [hne q hq, if_false]
        exact a3 q hq b (by rw [k2 q (hne q hq)]; exact hb)
    · rw [a4, d3]
      have e : (∃ q ∈ p :: ps, (if q = p then s.io.pixelAnswer p.1 p.2 else a q) = true) ↔
          (∃ q ∈ ps, a q = true) ∨ s.io.pixelAnswer p.1 p.2 = true := by
        constructor
        · rintro ⟨q, hq, hb⟩
          rcases List.mem_cons.mp hq with rfl | hq
          · right; simpa using hb
          · left; exact ⟨q, hq, by simpa [hne q hq] using hb⟩
        · rintro (⟨q, hq, hb⟩ | hb)
          · exact ⟨q, by simp [hq], by simpa [hne q hq] using hb⟩
          · exact ⟨p, by simp, by simpa using hb⟩
      by_cases hE : ∃ q ∈ ps, a q = true
      · rw [if_pos hE, if_pos (e.mpr (.inl hE))]
      · by_cases hA : s.io.pixelAnswer p.1 p.2 = true
        · rw [if_neg hE, if_pos (e.mpr (.inr hA)), if_pos ⟨rfl, hA⟩]
        · rw [if_neg hE, if_neg (fun hx => (e.mp hx).elim hE hA), if_neg (fun hx => hA hx.2)]

end Sys2Proof.Laws
end

