-- ==== Sys2Proof/Laws/Exec.lean ====
section
/-! SUPPORT. What an instruction can do, said once: it takes the one fault its condition names, or it leaves control and
latches alone, or its stack entry does not exist. -/

namespace Sys2Proof.Laws

open Sys2Proof.Machine Sys2Proof.Safety

/-- The condition on the state a handler sees under which an instruction raises a fault (R312). -/
def Raises (s : State) : Instr → Cause → Prop
  | .call _, .stackOverflow => s.sp = 16
  | .ret, .stackUnderflow => s.sp = 0
  | .drw _ _ n, .memoryRange => ∃ k, k < n.toNat ∧ 4096 ≤ s.I.toNat + k
  | .ldB _, .memoryRange => ∃ k, k < 3 ∧ 4096 ≤ s.I.toNat + k
  | .ldMemVx x, .memoryRange => ∃ k, k < x.toNat + 1 ∧ 4096 ≤ s.I.toNat + k
  | .ldVxMem x, .memoryRange => ∃ k, k < x.toNat + 1 ∧ 4096 ≤ s.I.toNat + k
  | .skp x, .keyRange => 0xF < (s.getV x).toNat
  | .sknp x, .keyRange => 0xF < (s.getV x).toNat
  | _, _ => False

/-- Control and latches, all of them left alone. -/
def Quiet (s t : State) : Prop := SameControl s t ∧ SameLatches s t

theorem quiet_refl (s : State) : Quiet s s := ⟨⟨rfl, rfl, rfl, rfl, rfl⟩, rfl, rfl⟩

theorem quiet_skipIf (c : Bool) (s : State) : Quiet s (s.skipIf c) := by
  cases c <;> exact ⟨⟨rfl, rfl, rfl, rfl, rfl⟩, rfl, rfl⟩

theorem quiet_setVsFrom (s : State) (k : Nat) (vs : List Byte) : Quiet s (s.setVsFrom k vs) := by
  obtain ⟨V', h⟩ := setVsFrom_shape vs s k
  rw [h]; exact ⟨⟨rfl, rfl, rfl, rfl, rfl⟩, rfl, rfl⟩

/-- What an instruction answers: its fault, a state that leaves control and latches alone, or the model's stop. -/
inductive ExecAnswer (i : Instr) (s : State) : Result → Prop where
  | raised (c : Cause) (h : Raises s i c) : ExecAnswer i s (.next (s.raise c))
  | done (t : State) (h : Quiet s t) (hno : ∀ c, ¬ Raises s i c) : ExecAnswer i s (.next t)
  | stopped (h : 16 < s.sp.toNat) (hi : i = .ret ∨ ∃ nnn, i = .call nnn) : ExecAnswer i s (.fault .stackEntryMissing)

/-- The inversion lemma of `exec`. -/
theorem exec_cases (i : Instr) (s : State) : ExecAnswer i s (exec i s) := by
  have q : ∀ (t : State), Quiet s t → (∀ c, ¬ Raises s i c) → ExecAnswer i s (.next t) :=
    fun t h hno => .done t h hno
  have range : ∀ (count : Nat) (f : State → State), Quiet s (f s) →
      (Raises s i .memoryRange ↔ ∃ k, k < count ∧ 4096 ≤ s.I.toNat + k) →
      (∀ c, c ≠ .memoryRange → ¬ Raises s i c) → ExecAnswer i s (checkRange s.base count s f) := by
    intro count f hf hr hc
    obtain ⟨h, e⟩ | ⟨h, e⟩ := checkRange_cases s.base count s f <;> rw [e]
    · refine q _ hf fun c hraise => ?_
      by_cases hcm : c = .memoryRange
      · subst hcm
        obtain ⟨k, hk, hle⟩ := hr.mp hraise
        exact absurd (h k hk) (by simpa [State.base] using hle)
      · exact hc c hcm hraise
    · exact .raised .memoryRange (hr.mpr h)
  have key : ∀ (x : Nibble) (f : Nibble → Bool), (Raises s i .keyRange ↔ 0xF < (s.getV x).toNat) →
      (∀ c, c ≠ .keyRange → ¬ Raises s i c) →
      ExecAnswer i s (match keyIndex (s.getV x) with
        | none => .next (s.raise .keyRange)
        | some k => .next (s.skipIf (f k))) := by
    intro x f hr hc
    obtain ⟨hle, k, hk, _⟩ | ⟨hlt, hk⟩ := keyIndex_cases (s.getV x) <;> rw [hk]
    · refine q _ (quiet_skipIf _ s) fun c hraise => ?_
      by_cases hck : c = .keyRange
      · subst hck; have := hr.mp hraise; omega
      · exact hc c hck hraise
    · exact .raised .keyRange (hr.mpr hlt)
  cases i with
  | ret =>
    simp only [exec, execRet]
    by_cases h0 : s.sp = 0
    · rw [if_pos h0]; exact .raised .stackUnderflow h0
    · rw [if_neg h0]
      obtain ⟨h, e⟩ | ⟨h, e⟩ := pop_cases s <;> rw [e]
      · exact q _ ⟨⟨rfl, rfl, rfl, rfl, rfl⟩, rfl, rfl⟩ fun c hr => by cases c <;> first | exact h0 hr | exact hr
      · refine .stopped ?_ (.inl rfl)
        have : s.sp.toNat ≠ 0 := fun h' => h0 (BitVec.eq_of_toNat_eq (by simpa using h'))
        omega
  | call nnn =>
    simp only [exec, execCall]
    by_cases h0 : s.sp = 16
    · rw [if_pos h0]; exact .raised .stackOverflow h0
    · rw [if_neg h0]
      obtain ⟨h1, h, e⟩ | ⟨h, e⟩ := push_cases s s.pc <;> rw [e]
      · exact q _ ⟨⟨rfl, rfl, rfl, rfl, rfl⟩, rfl, rfl⟩ fun c hr => by cases c <;> first | exact h0 hr | exact hr
      · refine .stopped ?_ (.inr ⟨nnn, rfl⟩)
        have : s.sp.toNat ≠ 16 := fun h' => h0 (BitVec.eq_of_toNat_eq (by simpa using h'))
        omega
  | drw x y n =>
    simp only [exec, execDrw]
    refine range _ _ ?_ Iff.rfl (fun c hc hr => by cases c <;> first | exact hc rfl | exact hr)
    obtain ⟨V', io', h⟩ := drawPixels_shape (spritePixels s.M s.base n.toNat (s.getV x).toNat (s.getV y).toNat)
      (s.setV VF 0)
    rw [h]; exact ⟨⟨rfl, rfl, rfl, rfl, rfl⟩, rfl, rfl⟩
  | ldB x =>
    simp only [exec, execLdB]
    exact range _ _ ⟨⟨rfl, rfl, rfl, rfl, rfl⟩, rfl, rfl⟩ Iff.rfl (fun c hc hr => by cases c <;> first | exact hc rfl | exact hr)
  | ldMemVx x =>
    simp only [exec, execLdMemVx]
    exact range _ _ ⟨⟨rfl, rfl, rfl, rfl, rfl⟩, rfl, rfl⟩ Iff.rfl (fun c hc hr => by cases c <;> first | exact hc rfl | exact hr)
  | ldVxMem x =>
    simp only [exec, execLdVxMem]
    exact range _ _ (quiet_setVsFrom _ _ _) Iff.rfl (fun c hc hr => by cases c <;> first | exact hc rfl | exact hr)
  | skp x => exact key x _ Iff.rfl (fun c hc hr => by cases c <;> first | exact hc rfl | exact hr)
  | sknp x => exact key x _ Iff.rfl (fun c hc hr => by cases c <;> first | exact hc rfl | exact hr)
  | ldVxK x =>
    simp only [exec, execLdVxK]
    cases s.scanKeys with
    | none => exact q _ ⟨⟨rfl, rfl, rfl, rfl, rfl⟩, rfl, rfl⟩ fun c hr => by cases c <;> exact hr
    | some k => exact q _ ⟨⟨rfl, rfl, rfl, rfl, rfl⟩, rfl, rfl⟩ fun c hr => by cases c <;> exact hr
  | seImm x nn | sneImm x nn | seReg x y n | sneReg x y n =>
    exact q _ (quiet_skipIf _ s) fun c hr => by cases c <;> exact hr
  | cls | jp nnn | ldImm x nn | addImm x nn | ldReg x y | orReg x y | andReg x y | xorReg x y | addReg x y
  | sub x y | shr x y | subn x y | shl x y | ldI nnn | jpV0 nnn | rnd x nn | ldVxDT x | ldDTVx x | ldSTVx x
  | addI x | ldF x =>
    exact q _ ⟨⟨rfl, rfl, rfl, rfl, rfl⟩, rfl, rfl⟩ fun c hr => by cases c <;> exact hr

/-- Under its condition a fault is raised: no instruction has two (R314). -/
theorem exec_raises (i : Instr) (s : State) (c : Cause) (hr : Raises s i c) : exec i s = .next (s.raise c) := by
  have he := exec_cases i s
  generalize exec i s = r at he
  cases he with
  | raised c' h' =>
    have : c' = c := by cases i <;> cases c <;> cases c' <;> first | rfl | exact hr.elim | exact h'.elim
    rw [this]
  | done t h hno => exact absurd hr (hno c)
  | stopped h hi =>
    obtain rfl | ⟨nnn, rfl⟩ := hi <;> cases c <;> try exact hr.elim
    · have hs : s.sp = 0 := hr
      rw [hs] at h; exact absurd h (by decide)
    · have hs : s.sp = 16 := hr
      rw [hs] at h; exact absurd h (by decide)

/-! ## Who writes what -/

/-- Which instructions write each piece of state, and with what where an invariant needs it: any other leaves it
alone. -/
structure Writes (i : Instr) (s t : State) : Prop where
  index : t.I = s.I ∨ (∃ nnn, i = .ldI nnn) ∨ ∃ x, i = .addI x ∨ i = .ldF x
  stack : (t.sp = s.sp ∧ ∀ k, t.stackEntry k = s.stackEntry k) ∨
    (∃ nnn, i = .call nnn ∧ s.sp.toNat < 16 ∧ t.sp.toNat = s.sp.toNat + 1 ∧
      ∀ k, t.stackEntry k = if k = s.sp.toNat + 1 then some s.pc else s.stackEntry k) ∨
    (i = .ret ∧ s.sp.toNat ≤ 16 ∧ t.sp.toNat = s.sp.toNat - 1 ∧ ∀ k, t.stackEntry k = s.stackEntry k)
  memory : t.M = s.M ∨ (∃ x, i = .ldB x ∧ s.I.toNat + 3 ≤ 4096 ∧
      t.M = Memory.writeAll s.M s.I.toNat (bcdDigits (s.getV x))) ∨
    (∃ x, i = .ldMemVx x ∧ s.I.toNat + (x.toNat + 1) ≤ 4096 ∧ t.M = Memory.writeAll s.M s.I.toNat (s.regsTo x))
  delay : t.DT = s.DT ∨ ∃ x, i = .ldDTVx x
  sound : t.ST = s.ST ∨ ∃ x, i = .ldSTVx x

/-- A fault writes none of it. -/
theorem writes_raise (i : Instr) (s : State) (c : Cause) : Writes i s (s.raise c) :=
  ⟨.inl rfl, .inl ⟨rfl, fun _ => rfl⟩, .inl rfl, .inl rfl, .inl rfl⟩

theorem exec_writes (i : Instr) (s t : State) (h : exec i s = .next t) : Writes i s t := by
  have range : ∀ (count : Nat) (f : State → State), exec i s = checkRange s.base count s f →
      ((s.I.toNat + count ≤ 4096 ∨ count = 0) → Writes i s (f s)) → Writes i s t := by
    intro count f he hw
    rw [he] at h
    obtain ⟨hr, e⟩ | ⟨_, e⟩ := checkRange_cases s.base count s f <;> rw [e] at h <;> cases h
    · refine hw ?_
      by_cases hc : count = 0
      · exact .inr hc
      · have := hr (count - 1) (by omega)
        left; simp only [State.base] at this; omega
    · exact writes_raise i s _
  have key : ∀ (x : Nibble) (f : Nibble → Bool),
      exec i s = (match keyIndex (s.getV x) with
        | none => .next (s.raise .keyRange)
        | some k => .next (s.skipIf (f k))) → Writes i s t := by
    intro x f he
    rw [he] at h
    cases hk : keyIndex (s.getV x) with
    | none => rw [hk] at h; cases h; exact writes_raise i s _
    | some k =>
      rw [hk] at h; cases h; rw [skipIf_eq]
      exact ⟨.inl rfl, .inl ⟨rfl, fun _ => rfl⟩, .inl rfl, .inl rfl, .inl rfl⟩
  cases i with
  | ret =>
    simp only [exec, execRet] at h
    by_cases h0 : s.sp = 0
    · rw [if_pos h0] at h; cases h; exact writes_raise _ s _
    · rw [if_neg h0] at h
      obtain ⟨hs, e⟩ | ⟨_, e⟩ := pop_cases s <;> rw [e] at h <;> cases h
      exact ⟨.inl rfl, .inr (.inr ⟨rfl, hs.2, sp_pred s h0, fun _ => rfl⟩), .inl rfl, .inl rfl, .inl rfl⟩
  | call nnn =>
    simp only [exec, execCall] at h
    by_cases h0 : s.sp = 16
    · rw [if_pos h0] at h; cases h; exact writes_raise _ s _
    · rw [if_neg h0] at h
      obtain ⟨hs, _, e⟩ | ⟨_, e⟩ := push_cases s s.pc <;> rw [e] at h <;> cases h
      exact ⟨.inl rfl, .inr (.inl ⟨nnn, rfl, hs, sp_succ s hs, fun k => push_stackEntry s _ s.pc e k⟩),
        .inl rfl, .inl rfl, .inl rfl⟩
  | drw x y n =>
    refine range n.toNat (fun s => (drawPixels (spritePixels s.M s.base n.toNat (s.getV x).toNat (s.getV y).toNat)
      (s.setV VF 0)).emit .present) rfl fun _ => ?_
    obtain ⟨V', io', e⟩ := drawPixels_shape (spritePixels s.M s.base n.toNat (s.getV x).toNat (s.getV y).toNat)
      (s.setV VF 0)
    simp only [e]
    exact ⟨.inl rfl, .inl ⟨rfl, fun _ => rfl⟩, .inl rfl, .inl rfl, .inl rfl⟩
  | ldB x =>
    refine range 3 (fun s => s.setM (Memory.writeAll s.M s.base (bcdDigits (s.getV x)))) rfl fun hr => ?_
    exact ⟨.inl rfl, .inl ⟨rfl, fun _ => rfl⟩, .inr (.inl ⟨x, rfl, by omega, rfl⟩), .inl rfl, .inl rfl⟩
  | ldMemVx x =>
    refine range (x.toNat + 1) (fun s => s.setM (Memory.writeAll s.M s.base (s.regsTo x))) rfl fun hr => ?_
    exact ⟨.inl rfl, .inl ⟨rfl, fun _ => rfl⟩, .inr (.inr ⟨x, rfl, by omega, rfl⟩), .inl rfl, .inl rfl⟩
  | ldVxMem x =>
    refine range (x.toNat + 1) (fun s => s.setVsFrom 0 (Memory.readAll s.M s.base (x.toNat + 1))) rfl fun _ => ?_
    obtain ⟨V', e⟩ := setVsFrom_shape (Memory.readAll s.M s.base (x.toNat + 1)) s 0
    simp only [e]
    exact ⟨.inl rfl, .inl ⟨rfl, fun _ => rfl⟩, .inl rfl, .inl rfl, .inl rfl⟩
  | skp x => exact key x _ rfl
  | sknp x => exact key x _ rfl
  | ldVxK x =>
    simp only [exec, execLdVxK] at h
    cases hk : s.scanKeys <;> rw [hk] at h <;> cases h <;>
      exact ⟨.inl rfl, .inl ⟨rfl, fun _ => rfl⟩, .inl rfl, .inl rfl, .inl rfl⟩
  | seImm x nn | sneImm x nn | seReg x y n | sneReg x y n =>
    simp only [exec, execSeImm, execSneImm, execSeReg, execSneReg, skipIf_eq] at h; cases h
    exact ⟨.inl rfl, .inl ⟨rfl, fun _ => rfl⟩, .inl rfl, .inl rfl, .inl rfl⟩
  | cls | jp nnn | ldImm x nn | addImm x nn | ldReg x y | orReg x y | andReg x y | xorReg x y | addReg x y | sub x y
  | shr x y | subn x y | shl x y | jpV0 nnn | rnd x nn | ldVxDT x =>
    cases h; exact ⟨.inl rfl, .inl ⟨rfl, fun _ => rfl⟩, .inl rfl, .inl rfl, .inl rfl⟩
  | ldI nnn =>
    cases h; exact ⟨.inr (.inl ⟨nnn, rfl⟩), .inl ⟨rfl, fun _ => rfl⟩, .inl rfl, .inl rfl, .inl rfl⟩
  | ldDTVx x => cases h; exact ⟨.inl rfl, .inl ⟨rfl, fun _ => rfl⟩, .inl rfl, .inr ⟨x, rfl⟩, .inl rfl⟩
  | ldSTVx x => cases h; exact ⟨.inl rfl, .inl ⟨rfl, fun _ => rfl⟩, .inl rfl, .inl rfl, .inr ⟨x, rfl⟩⟩
  | addI x =>
    cases h; exact ⟨.inr (.inr ⟨x, .inl rfl⟩), .inl ⟨rfl, fun _ => rfl⟩, .inl rfl, .inl rfl, .inl rfl⟩
  | ldF x =>
    cases h; exact ⟨.inr (.inr ⟨x, .inr rfl⟩), .inl ⟨rfl, fun _ => rfl⟩, .inl rfl, .inl rfl, .inl rfl⟩

/-- Where an instruction leaves pc (R34), seen from the pc its handler sees. -/
inductive PcAfter (s : State) : Instr → Word → Prop where
  | stays (i : Instr) : PcAfter s i s.pc
  | skips (i : Instr) : PcAfter s i (s.pc + 2)
  | rewinds (i : Instr) : PcAfter s i (s.pc - 2)
  | jumps (i : Instr) (nnn : Addr12) (hi : i = .jp nnn ∨ i = .call nnn) : PcAfter s i (nnn.setWidth 16)
  | indexed (nnn : Addr12) : PcAfter s (.jpV0 nnn) (nnn.setWidth 16 + (s.getV 0).setWidth 16)
  | returns (v : Word) (hsp : 1 ≤ s.sp.toNat ∧ s.sp.toNat ≤ 16) (hv : s.stackEntry s.sp.toNat = some v) :
      PcAfter s .ret v

theorem exec_pc (i : Instr) (s t : State) (h : exec i s = .next t) : PcAfter s i t.pc := by
  have range : ∀ (count : Nat) (f : State → State), exec i s = checkRange s.base count s f →
      (f s).pc = s.pc → PcAfter s i t.pc := by
    intro count f he hw
    rw [he] at h
    obtain ⟨_, e⟩ | ⟨_, e⟩ := checkRange_cases s.base count s f <;> rw [e] at h <;> cases h
    · rw [hw]; exact .stays i
    · exact .rewinds i
  have skip : ∀ c, PcAfter s i (s.skipIf c).pc := by
    intro c; cases c
    · exact .stays i
    · exact .skips i
  have key : ∀ (x : Nibble) (f : Nibble → Bool),
      exec i s = (match keyIndex (s.getV x) with
        | none => .next (s.raise .keyRange)
        | some k => .next (s.skipIf (f k))) → PcAfter s i t.pc := by
    intro x f he
    rw [he] at h
    cases hk : keyIndex (s.getV x) with
    | none => rw [hk] at h; cases h; exact .rewinds i
    | some k => rw [hk] at h; cases h; exact skip _
  cases i with
  | ret =>
    simp only [exec, execRet] at h
    by_cases h0 : s.sp = 0
    · rw [if_pos h0] at h; cases h; exact .rewinds _
    · rw [if_neg h0] at h
      obtain ⟨hs, e⟩ | ⟨_, e⟩ := pop_cases s <;> rw [e] at h <;> cases h
      exact .returns _ hs (stackEntry_eq s _ hs)
  | call nnn =>
    simp only [exec, execCall] at h
    by_cases h0 : s.sp = 16
    · rw [if_pos h0] at h; cases h; exact .rewinds _
    · rw [if_neg h0] at h
      obtain ⟨_, _, e⟩ | ⟨_, e⟩ := push_cases s s.pc <;> rw [e] at h <;> cases h
      exact .jumps _ nnn (.inr rfl)
  | jp nnn => cases h; exact .jumps _ nnn (.inl rfl)
  | jpV0 nnn => cases h; exact .indexed nnn
  | drw x y n =>
    refine range n.toNat (fun s => (drawPixels (spritePixels s.M s.base n.toNat (s.getV x).toNat (s.getV y).toNat)
      (s.setV VF 0)).emit .present) rfl ?_
    obtain ⟨V', io', e⟩ := drawPixels_shape (spritePixels s.M s.base n.toNat (s.getV x).toNat (s.getV y).toNat)
      (s.setV VF 0)
    simp only [e]; rfl
  | ldB x => exact range 3 (fun s => s.setM (Memory.writeAll s.M s.base (bcdDigits (s.getV x)))) rfl rfl
  | ldMemVx x => exact range (x.toNat + 1) (fun s => s.setM (Memory.writeAll s.M s.base (s.regsTo x))) rfl rfl
  | ldVxMem x =>
    refine range (x.toNat + 1) (fun s => s.setVsFrom 0 (Memory.readAll s.M s.base (x.toNat + 1))) rfl ?_
    obtain ⟨V', e⟩ := setVsFrom_shape (Memory.readAll s.M s.base (x.toNat + 1)) s 0
    simp only [e]
  | skp x => exact key x _ rfl
  | sknp x => exact key x _ rfl
  | ldVxK x =>
    simp only [exec, execLdVxK] at h
    cases hk : s.scanKeys <;> rw [hk] at h <;> cases h
    · exact .rewinds _
    · exact .stays _
  | seImm x nn | sneImm x nn | seReg x y n | sneReg x y n => cases h; exact skip _
  | cls | ldImm x nn | addImm x nn | ldReg x y | orReg x y | andReg x y | xorReg x y | addReg x y | sub x y
  | shr x y | subn x y | shl x y | rnd x nn | ldVxDT x | ldI nnn | ldDTVx x | ldSTVx x | addI x | ldF x =>
    cases h; exact .stays _

/-- The instructions that can change VF (R31): as a flag, or as their destination. -/
def WritesVF : Instr → Prop
  | .addReg _ _ => True
  | .sub _ _ => True
  | .shr _ _ => True
  | .subn _ _ => True
  | .shl _ _ => True
  | .drw _ _ _ => True
  | .ldImm x _ => x = VF
  | .addImm x _ => x = VF
  | .rnd x _ => x = VF
  | .ldReg x _ => x = VF
  | .orReg x _ => x = VF
  | .andReg x _ => x = VF
  | .xorReg x _ => x = VF
  | .ldVxDT x => x = VF
  | .ldVxK x => x = VF
  | .ldVxMem x => x = VF
  | _ => False

theorem getV_VF_setV (s : State) (x : Nibble) (v : Byte) : (s.setV x v).getV VF = s.getV VF ∨ x = VF := by
  by_cases hx : x = VF
  · exact .inr hx
  · left; rw [getV_setV, if_neg (Ne.symm hx)]

theorem exec_flag (i : Instr) (s t : State) (h : exec i s = .next t) : t.getV VF = s.getV VF ∨ WritesVF i := by
  have range : ∀ (count : Nat) (f : State → State), exec i s = checkRange s.base count s f →
      ((f s).getV VF = s.getV VF ∨ WritesVF i) → (t.getV VF = s.getV VF ∨ WritesVF i) := by
    intro count f he hw
    rw [he] at h
    obtain ⟨_, e⟩ | ⟨_, e⟩ := checkRange_cases s.base count s f <;> rw [e] at h <;> cases h
    · exact hw
    · exact .inl rfl
  have skip : ∀ c, (s.skipIf c).getV VF = s.getV VF ∨ WritesVF i := by intro c; cases c <;> exact .inl rfl
  have key : ∀ (x : Nibble) (f : Nibble → Bool),
      exec i s = (match keyIndex (s.getV x) with
        | none => .next (s.raise .keyRange)
        | some k => .next (s.skipIf (f k))) → (t.getV VF = s.getV VF ∨ WritesVF i) := by
    intro x f he
    rw [he] at h
    cases hk : keyIndex (s.getV x) with
    | none => rw [hk] at h; cases h; exact .inl rfl
    | some k => rw [hk] at h; cases h; exact skip _
  cases i with
  | ret =>
    simp only [exec, execRet] at h
    by_cases h0 : s.sp = 0
    · rw [if_pos h0] at h; cases h; exact .inl rfl
    · rw [if_neg h0] at h
      obtain ⟨_, e⟩ | ⟨_, e⟩ := pop_cases s <;> rw [e] at h <;> cases h
      exact .inl rfl
  | call nnn =>
    simp only [exec, execCall] at h
    by_cases h0 : s.sp = 16
    · rw [if_pos h0] at h; cases h; exact .inl rfl
    · rw [if_neg h0] at h
      obtain ⟨_, _, e⟩ | ⟨_, e⟩ := push_cases s s.pc <;> rw [e] at h <;> cases h
      exact .inl rfl
  | ldB x => exact range 3 (fun s => s.setM (Memory.writeAll s.M s.base (bcdDigits (s.getV x)))) rfl (.inl rfl)
  | ldMemVx x =>
    exact range (x.toNat + 1) (fun s => s.setM (Memory.writeAll s.M s.base (s.regsTo x))) rfl (.inl rfl)
  | ldVxMem x =>
    refine range (x.toNat + 1) (fun s => s.setVsFrom 0 (Memory.readAll s.M s.base (x.toNat + 1))) rfl ?_
    by_cases hx : x = VF
    · exact .inr hx
    · left
      have h15 : x.toNat ≠ 15 := fun h' => hx (BitVec.eq_of_toNat_eq (by simpa [VF] using h'))
      have hlt := x.isLt
      show ((s.setVsFrom 0 (Memory.readAll s.M s.base (x.toNat + 1))).getV VF) = _
      rw [getV_setVsFrom _ _ _ _ (by rw [readAll_length]; omega), if_pos (by omega),
        List.getElem?_eq_none (by rw [readAll_length]; show _ ≤ 15 - 0; omega)]
      rfl
  | skp x => exact key x _ rfl
  | sknp x => exact key x _ rfl
  | ldVxK x =>
    simp only [exec, execLdVxK] at h
    cases hk : s.scanKeys <;> rw [hk] at h <;> cases h
    · exact .inl rfl
    · exact getV_VF_setV s x _
  | seImm x nn | sneImm x nn | seReg x y n | sneReg x y n => cases h; exact skip _
  | drw x y n | addReg x y | sub x y | shr x y | subn x y | shl x y => exact .inr trivial
  | ldImm x nn | addImm x nn | ldReg x y | orReg x y | andReg x y | xorReg x y | ldVxDT x =>
    cases h; exact getV_VF_setV s x _
  | rnd x nn => cases h; exact getV_VF_setV (s.setIo s.io.afterRnd) x _
  | cls | jp nnn | jpV0 nnn | ldI nnn | ldDTVx x | ldSTVx x | addI x | ldF x => cases h; exact .inl rfl

/-- No instruction beeps: only the end of a cycle does (R141). -/
theorem beeps_exec (i : Instr) (s t : State) (h : exec i s = .next t) : beeps t = beeps s := by
  have range : ∀ (count : Nat) (f : State → State), exec i s = checkRange s.base count s f →
      (beeps (f s) = beeps s) → beeps t = beeps s := by
    intro count f he hw
    rw [he] at h
    obtain ⟨_, e⟩ | ⟨_, e⟩ := checkRange_cases s.base count s f <;> rw [e] at h <;> cases h
    · exact hw
    · rfl
  have skip : ∀ c, beeps (s.skipIf c) = beeps s := by intro c; cases c <;> rfl
  have key : ∀ (x : Nibble) (f : Nibble → Bool),
      exec i s = (match keyIndex (s.getV x) with
        | none => .next (s.raise .keyRange)
        | some k => .next (s.skipIf (f k))) → beeps t = beeps s := by
    intro x f he
    rw [he] at h
    cases hk : keyIndex (s.getV x) with
    | none => rw [hk] at h; cases h; rfl
    | some k => rw [hk] at h; cases h; exact skip _
  cases i with
  | ret =>
    simp only [exec, execRet] at h
    by_cases h0 : s.sp = 0
    · rw [if_pos h0] at h; cases h; rfl
    · rw [if_neg h0] at h
      obtain ⟨_, e⟩ | ⟨_, e⟩ := pop_cases s <;> rw [e] at h <;> cases h
      rfl
  | call nnn =>
    simp only [exec, execCall] at h
    by_cases h0 : s.sp = 16
    · rw [if_pos h0] at h; cases h; rfl
    · rw [if_neg h0] at h
      obtain ⟨_, _, e⟩ | ⟨_, e⟩ := push_cases s s.pc <;> rw [e] at h <;> cases h
      rfl
  | drw x y n =>
    refine range n.toNat (fun s => (drawPixels (spritePixels s.M s.base n.toNat (s.getV x).toNat (s.getV y).toNat)
      (s.setV VF 0)).emit .present) rfl ?_
    obtain ⟨as, _, a2, _, _⟩ :=
      drawPixels_spec (spritePixels s.M s.base n.toNat (s.getV x).toNat (s.getV y).toNat) (s.setV VF 0)
    show List.count _ (Event.present :: (drawPixels _ _).io.events) = _
    rw [a2, List.count_cons_of_ne (by decide), List.count_append]
    have : List.count Event.beep ((((spritePixels s.M s.base n.toNat (s.getV x).toNat (s.getV y).toNat).zip as).flatMap
        fun q => [Event.getPixel q.1.1 q.1.2 q.2, Event.setPixel q.1.1 q.1.2 (!q.2)]).reverse) = 0 := by
      rw [List.count_eq_zero]; simp
    rw [this, Nat.zero_add]; rfl
  | ldB x => exact range 3 (fun s => s.setM (Memory.writeAll s.M s.base (bcdDigits (s.getV x)))) rfl rfl
  | ldMemVx x =>
    exact range (x.toNat + 1) (fun s => s.setM (Memory.writeAll s.M s.base (s.regsTo x))) rfl rfl
  | ldVxMem x =>
    refine range (x.toNat + 1) (fun s => s.setVsFrom 0 (Memory.readAll s.M s.base (x.toNat + 1))) rfl ?_
    obtain ⟨V', e⟩ := setVsFrom_shape (Memory.readAll s.M s.base (x.toNat + 1)) s 0
    simp only [e]; rfl
  | skp x => exact key x _ rfl
  | sknp x => exact key x _ rfl
  | ldVxK x =>
    simp only [exec, execLdVxK] at h
    cases hk : s.scanKeys <;> rw [hk] at h <;> cases h <;> rfl
  | seImm x nn | sneImm x nn | seReg x y n | sneReg x y n => cases h; exact skip _
  | cls => cases h; simp [beeps, State.emit, State.setIo]
  | rnd x nn => cases h; simp [beeps, Interface.afterRnd]; split <;> rfl
  | addReg x y | sub x y | shr x y | subn x y | shl x y
  | ldImm x nn | addImm x nn | ldReg x y | orReg x y | andReg x y | xorReg x y | ldVxDT x  | jp nnn | jpV0 nnn
  | ldI nnn | ldDTVx x | ldSTVx x | addI x | ldF x =>
    cases h; rfl

/-! ## The display's answers -/

/-- One set bit of a sprite, on the interface (R232). -/
theorem drawPixel_io (p : Nat × Nat) (s : State) :
    (drawPixel p s).io =
      { s.io.afterPixel p.1 p.2 with
        events := .setPixel p.1 p.2 (!s.io.pixelAnswer p.1 p.2) ::
          .getPixel p.1 p.2 (s.io.pixelAnswer p.1 p.2) :: s.io.events } := by
  simp [drawPixel, State.getPixel, State.setPixel, State.emit, State.setIo, State.setV, afterPixel_events]

/-- The answers of `drawPixels` are the interface's at each query, and VF tells whether one was true (R232). -/
theorem drawPixels_answers (ps : List (Nat × Nat)) (s : State) :
    ∃ answers, DisplayAnswers ps answers s.io (drawPixels ps s).io ∧
      ∀ z, (drawPixels ps s).getV z = if z = VF ∧ true ∈ answers then 1 else s.getV z := by
  induction ps generalizing s with
  | nil => exact ⟨[], rfl, fun z => by simp [drawPixels]⟩
  | cons p ps ih =>
    obtain ⟨answers, h, hv⟩ := ih (drawPixel p s)
    refine ⟨s.io.pixelAnswer p.1 p.2 :: answers, ⟨rfl, ?_⟩, fun z => ?_⟩
    · rw [drawPixel_io] at h; exact h
    · show (drawPixels ps (drawPixel p s)).getV z = _
      rw [hv, (drawPixel_spec p s).2.2]
      by_cases hz : z = VF <;> by_cases ha : true ∈ answers <;> cases hp : s.io.pixelAnswer p.1 p.2 <;> simp [hz, ha]

/-- An answered query changes the feed of answers or its counter, and nothing else of the interface. -/
theorem afterPixel_shape (io : Interface) (x y : Nat) :
    io.afterPixel x y =
      { io with pixelFeed := (io.afterPixel x y).pixelFeed, pixelDraws := (io.afterPixel x y).pixelDraws } := by
  unfold Interface.afterPixel
  split
  · rfl
  · split <;> rfl

/-- What the display's answers leave of the interface: one answer a pixel, two events a pixel, and of the rest only the
feed of answers and its counter changed. -/
theorem displayAnswers_frame (ps : List (Nat × Nat)) (answers : List Bool) (io io' : Interface)
    (h : DisplayAnswers ps answers io io') :
    answers.length = ps.length ∧
    io'.events = ((ps.zip answers).flatMap fun q =>
      [Event.getPixel q.1.1 q.1.2 q.2, Event.setPixel q.1.1 q.1.2 (!q.2)]).reverse ++ io.events ∧
    io' = { io with events := io'.events, pixelFeed := io'.pixelFeed, pixelDraws := io'.pixelDraws } := by
  induction ps generalizing answers io with
  | nil =>
    cases answers with
    | nil => obtain rfl := h; exact ⟨rfl, rfl, rfl⟩
    | cons a answers => exact h.elim
  | cons p ps ih =>
    cases answers with
    | nil => exact h.elim
    | cons a answers =>
      obtain ⟨_, h⟩ := h
      obtain ⟨h1, h2, h3⟩ := ih answers _ h
      refine ⟨by simp [h1], by rw [h2]; simp, ?_⟩
      rw [h3, afterPixel_shape]

/-- With a surface of unknown size the answers are the feed's, in order, and free values after it (R64). -/
theorem displayAnswers_unknown (ps : List (Nat × Nat)) (answers : List Bool) (io io' : Interface)
    (h : DisplayAnswers ps answers io io') (hs : io.surface = none) :
    (∀ k, k < ps.length → answers[k]? =
      some (io.pixelFeed[k]?.getD (Config.freePixel (io.pixelDraws + (k - io.pixelFeed.length))))) ∧
    io'.pixelFeed = io.pixelFeed.drop ps.length ∧
    io'.pixelDraws = io.pixelDraws + (ps.length - io.pixelFeed.length) := by
  induction ps generalizing answers io with
  | nil =>
    cases answers with
    | nil => obtain rfl := h; exact ⟨fun k hk => absurd hk (Nat.not_lt_zero k), rfl, by simp⟩
    | cons a answers => exact h.elim
  | cons p ps ih =>
    cases answers with
    | nil => exact h.elim
    | cons a answers =>
      obtain ⟨ha, h⟩ := h
      have hk : io.kept p.1 p.2 = none := by simp [Interface.kept, onSurface, hs]
      obtain ⟨h1, h2, h3⟩ := ih answers _ h ((afterPixel_surface io p.1 p.2).trans hs)
      cases hf : io.pixelFeed with
      | nil =>
        have e : io.afterPixel p.1 p.2 = { io with pixelDraws := io.pixelDraws + 1 } := by
          simp [Interface.afterPixel, hk, hf]
        rw [e] at h1 h2 h3
        simp only [hf] at h1 h2 h3
        refine ⟨fun k hlt => ?_, by simpa using h2, by rw [h3]; simp; omega⟩
        cases k with
        | zero => simp [ha, Interface.pixelAnswer, hk, hf]
        | succ k =>
          rw [List.getElem?_cons_succ, h1 k (by simpa using hlt)]
          simp [Nat.add_assoc, Nat.add_comm 1 k]
      | cons b rest =>
        have e : io.afterPixel p.1 p.2 = { io with pixelFeed := rest } := by
          simp [Interface.afterPixel, hk, hf]
        rw [e] at h1 h2 h3
        simp only [] at h1 h2 h3
        refine ⟨fun k hlt => ?_, by simpa using h2, by rw [h3]; simp⟩
        cases k with
        | zero => simp [ha, Interface.pixelAnswer, hk, hf]
        | succ k =>
          rw [List.getElem?_cons_succ, h1 k (by simpa using hlt)]
          simp

/-! ## PROG_SIZE is not read -/

/-- A state with another PROG_SIZE. -/
abbrev withProgSize (n : Fin (Config.progMax + 1)) (s : State) : State := { s with progSize := n }

/-- An answer with another PROG_SIZE. -/
def answerWithProgSize (n : Fin (Config.progMax + 1)) : Result → Result
  | .next t => .next (withProgSize n t)
  | .fault f => .fault f
  | .refused r => .refused r

theorem drawPixels_withProgSize (n : Fin (Config.progMax + 1)) (ps : List (Nat × Nat)) (s : State) :
    drawPixels ps (withProgSize n s) = withProgSize n (drawPixels ps s) := by
  induction ps generalizing s with
  | nil => rfl
  | cons p ps ih => exact ih (drawPixel p s)

theorem setVsFrom_withProgSize (n : Fin (Config.progMax + 1)) (vs : List Byte) (s : State) (k : Nat) :
    (withProgSize n s).setVsFrom k vs = withProgSize n (s.setVsFrom k vs) := by
  induction vs generalizing s k with
  | nil => rfl
  | cons v vs ih => exact ih (s.setV (BitVec.ofNat 4 k) v) (k + 1)

theorem pop_withProgSize (n : Fin (Config.progMax + 1)) (s : State) :
    (withProgSize n s).pop = s.pop.map (withProgSize n) := by
  obtain ⟨h, e⟩ | ⟨h, e⟩ := pop_cases s
  · obtain ⟨_, e'⟩ | ⟨h', _⟩ := pop_cases (withProgSize n s)
    · rw [e, e']; rfl
    · exact absurd h h'
  · obtain ⟨h', _⟩ | ⟨_, e'⟩ := pop_cases (withProgSize n s)
    · exact absurd h' h
    · rw [e, e']; rfl

theorem push_withProgSize (n : Fin (Config.progMax + 1)) (s : State) (v : Word) :
    (withProgSize n s).push v = (s.push v).map (withProgSize n) := by
  obtain ⟨h, _, e⟩ | ⟨h, e⟩ := push_cases s v
  · obtain ⟨_, _, e'⟩ | ⟨h', _⟩ := push_cases (withProgSize n s) v
    · rw [e, e']; rfl
    · exact absurd h (Nat.not_lt.mpr h')
  · obtain ⟨h', _⟩ | ⟨_, e'⟩ := push_cases (withProgSize n s) v
    · exact absurd h' (Nat.not_lt.mpr h)
    · rw [e, e']; rfl

/-- No instruction reads PROG_SIZE (R40). -/
theorem exec_withProgSize (i : Instr) (n : Fin (Config.progMax + 1)) (s : State) :
    exec i (withProgSize n s) = answerWithProgSize n (exec i s) := by
  have range : ∀ (base count : Nat) (f : State → State), f (withProgSize n s) = withProgSize n (f s) →
      checkRange base count (withProgSize n s) f = answerWithProgSize n (checkRange base count s f) := by
    intro base count f hf
    unfold checkRange
    split
    · rw [hf]; rfl
    · rfl
  have skip : ∀ c, (withProgSize n s).skipIf c = withProgSize n (s.skipIf c) := by intro c; cases c <;> rfl
  have held : ∀ k, (withProgSize n s).keyHeld k = s.keyHeld k := fun _ => rfl
  have regs : ∀ x, (withProgSize n s).getV x = s.getV x := fun _ => rfl
  have scan : (withProgSize n s).scanKeys = s.scanKeys := rfl
  cases i with
  | drw x y k =>
    refine range s.base k.toNat (fun s => (drawPixels (spritePixels s.M s.base k.toNat (s.getV x).toNat
      (s.getV y).toNat) (s.setV VF 0)).emit .present) ?_
    exact congrArg (State.emit · .present) (drawPixels_withProgSize n _ (s.setV VF 0))
  | ldB x => exact range s.base 3 (fun s => s.setM (Memory.writeAll s.M s.base (bcdDigits (s.getV x)))) rfl
  | ldMemVx x =>
    exact range s.base (x.toNat + 1) (fun s => s.setM (Memory.writeAll s.M s.base (s.regsTo x))) rfl
  | ldVxMem x =>
    exact range s.base (x.toNat + 1) (fun s => s.setVsFrom 0 (Memory.readAll s.M s.base (x.toNat + 1)))
      (setVsFrom_withProgSize n _ s 0)
  | skp x =>
    simp only [exec, execSkp, regs, held]
    cases keyIndex (s.getV x) with
    | none => rfl
    | some k => exact congrArg Host.Outcome.next (skip _)
  | sknp x =>
    simp only [exec, execSknp, regs, held]
    cases keyIndex (s.getV x) with
    | none => rfl
    | some k => exact congrArg Host.Outcome.next (skip _)
  | ldVxK x =>
    simp only [exec, execLdVxK, scan]
    cases s.scanKeys <;> rfl
  | ret =>
    simp only [exec, execRet, pop_withProgSize]
    by_cases h : s.sp = 0
    · rw [if_pos h, if_pos h]; rfl
    · rw [if_neg h, if_neg h]; cases s.pop <;> rfl
  | call nnn =>
    simp only [exec, execCall, push_withProgSize]
    by_cases h : s.sp = 16
    · rw [if_pos h, if_pos h]; rfl
    · rw [if_neg h, if_neg h]; cases s.push s.pc <;> rfl
  | seImm x nn | sneImm x nn | seReg x y k | sneReg x y k => exact congrArg Host.Outcome.next (skip _)
  | cls | jp nnn | ldImm x nn | addImm x nn | ldReg x y | orReg x y | andReg x y | xorReg x y | addReg x y | sub x y
  | shr x y | subn x y | shl x y | jpV0 nnn | rnd x nn | ldVxDT x | ldI nnn | ldDTVx x | ldSTVx x | addI x | ldF x =>
    rfl

end Sys2Proof.Laws
end

