-- ==== Sys2Proof/Laws/Cycle.lean ====
section
/-! SUPPORT. What a step can do, said once, and what the end of a cycle leaves in each field. -/

namespace Sys2Proof.Laws

open Sys2Proof.Machine Sys2Proof.Safety

/-! ## The end of a cycle -/

theorem decayDT_eq (s : State) : s.decayDT = s.setDT (if s.DT = 0 then 0 else s.DT - 1) := by
  unfold State.decayDT
  split
  · rename_i h; rw [← h]; rfl
  · rfl

theorem decayST_eq (s : State) :
    s.decayST = (s.setST (if s.ST = 0 then 0 else s.ST - 1)).setIo
      { s.io with events := (if s.ST = 0 then [] else [.beep]) ++ s.io.events } := by
  unfold State.decayST
  split
  · rename_i h; rw [← h]; rfl
  · rfl

/-- The end of a cycle that executed (R140, R141): the timers, the beep and the latches, and nothing else. -/
theorem endCycle_running (s : State) (h : s.run = .running) :
    s.endCycle = { s with
      DT := if s.DT = 0 then 0 else s.DT - 1
      ST := if s.ST = 0 then 0 else s.ST - 1
      io := { s.io with events := (if s.ST = 0 then [] else [.beep]) ++ s.io.events }
      op := 0, K := 0 } := by
  have e : s.endCycle = s.decayDT.decayST.clearLatches := by rw [State.endCycle, h]
  rw [e, decayST_eq, decayDT_eq]
  rfl

/-- The end of a cycle that did not (R139): the latches only. -/
theorem endCycle_stopped (s : State) (h : s.run ≠ .running) : s.endCycle = s.clearLatches := by
  unfold State.endCycle
  split <;> simp_all

theorem endCycle_run (s : State) : s.endCycle.run = s.run := by
  by_cases h : s.run = .running
  · rw [endCycle_running s h]
  · rw [endCycle_stopped s h]; rfl

theorem decay_toNat (b : Byte) : (if b = 0 then 0 else b - 1 : Byte).toNat = b.toNat - 1 := by
  split
  · rename_i h; subst h; rfl
  · rename_i h
    have : b.toNat ≠ 0 := fun h' => h (BitVec.eq_of_toNat_eq (by simpa using h'))
    rw [BitVec.toNat_sub]; simp; have := b.isLt; omega

/-! ## A step -/

/-- The word at pc, as the fetch reads it, high byte first (R71). -/
theorem fetch_some (s : State) (h : s.pc.toNat + 1 < 4096) :
    s.fetch = some (s.M.read s.pc.toNat ++ s.M.read (s.pc.toNat + 1) : Word) := if_pos h

/-- No word lies at the top of memory (R133). -/
theorem fetch_none (s : State) (h : 4096 ≤ s.pc.toNat + 1) : s.fetch = none := if_neg (Nat.not_lt.mpr h)

/-- The key sample changes nothing the fetch reads. -/
theorem fetch_sampleKeys (s : State) : s.sampleKeys.fetch = s.fetch := rfl

/-- What a step can do: nothing, halt, take FetchRange, or execute the fetched word. -/
inductive StepAnswer (s : State) : Result → Prop where
  | idle (h : s.run ≠ .running) : StepAnswer s (.next s)
  | halts (h : s.run = .running) (hend : 0x200 + s.progSize.val ≤ s.pc.toNat) : StepAnswer s (.next s.halt)
  | fetchFault (h : s.run = .running) (hend : s.pc.toNat < 0x200 + s.progSize.val) (hpc : 4096 ≤ s.pc.toNat + 1) :
      StepAnswer s (.next (s.sampleKeys.takeFault .fetchRange s.pc 0).clearLatches)
  | executes (w : Word) (h : Fetches s w) : StepAnswer s (finish (executeWord w (handlerState s w)))

/-- The inversion lemma of `step`. -/
theorem step_cases (s : State) : StepAnswer s (step s) := by
  by_cases hr : s.run = .running
  · have hs : step s = cycle s := by rw [step, hr]
    rw [hs, cycle]
    by_cases he : 0x200 + s.progSize.val ≤ s.pc.toNat
    · rw [if_pos (by simpa [State.atEnd] using he)]; exact .halts hr he
    · rw [if_neg (by simpa [State.atEnd] using he)]
      simp only [fetch_sampleKeys]
      by_cases hf : s.pc.toNat + 1 < 4096
      · rw [fetch_some s hf]
        exact .executes _ ⟨hr, by omega, hf, rfl⟩
      · rw [fetch_none s (by omega)]
        exact .fetchFault hr (by omega) (by omega)
  · have hs : step s = .next s := by
      unfold step; cases h : s.run <;> simp_all
    rw [hs]; exact .idle hr

/-- A machine that is not Running does nothing (R144). -/
theorem step_idle (s : State) (h : s.run ≠ .running) : step s = .next s := by
  unfold step; cases hr : s.run <;> simp_all

/-- A step that fetches a word executes it. -/
theorem step_executes (s : State) (w : Word) (h : Fetches s w) :
    step s = finish (executeWord w (handlerState s w)) := by
  obtain ⟨hr, hend, hpc, hw⟩ := h
  have hs : step s = cycle s := by rw [step, hr]
  rw [hs, cycle, if_neg (by simpa [State.atEnd] using hend)]
  simp only [fetch_sampleKeys]
  rw [fetch_some s hpc, ← hw]
  rfl

/-- A step whose fetch fails takes FetchRange (R133). -/
theorem step_fetchFault (s : State) (hr : s.run = .running) (hend : s.pc.toNat < 0x200 + s.progSize.val)
    (hpc : 4096 ≤ s.pc.toNat + 1) :
    step s = .next (s.sampleKeys.takeFault .fetchRange s.pc 0).clearLatches := by
  have hs : step s = cycle s := by rw [step, hr]
  rw [hs, cycle, if_neg (by simpa [State.atEnd] using hend)]
  simp only [fetch_sampleKeys]
  rw [fetch_none s hpc]
  rfl

/-- The word fetched is determined. -/
theorem fetches_unique (s : State) (w w' : Word) (h : Fetches s w) (h' : Fetches s w') : w = w' :=
  h.2.2.2.trans h'.2.2.2.symm

theorem executeWord_ok (w : Word) (i : Instr) (s : State) (h : decodeWord w = .ok i) : executeWord w s = exec i s := by
  rw [executeWord, h]

theorem executeWord_error (w : Word) (e : Reject) (s : State) (h : decodeWord w = .error e) :
    executeWord w s = .next (s.emit (.unimpl w)) := by
  rw [executeWord, h]; rfl

/-- A word either decodes and is executed, or is unimplemented (R136, R138). -/
theorem executeWord_cases (w : Word) (s : State) :
    (∃ i, decodeWord w = .ok i ∧ executeWord w s = exec i s) ∨
    (∃ e, decodeWord w = .error e ∧ executeWord w s = .next (s.emit (.unimpl w))) := by
  cases h : decodeWord w with
  | ok i => exact .inl ⟨i, rfl, executeWord_ok w i s h⟩
  | error e => exact .inr ⟨e, rfl, executeWord_error w e s h⟩

/-- A handler sees pc two past the instruction. -/
theorem pcI_handlerState (s : State) (w : Word) : (handlerState s w).pc - 2 = s.pc := by
  simp [handlerState]

/-- The next state of a step, case by case: everything a step that answers one can do. -/
inductive StepNext (s : State) : State → Prop where
  | idle (h : s.run ≠ .running) : StepNext s s
  | halts (h : s.run = .running) (hend : 0x200 + s.progSize.val ≤ s.pc.toNat) : StepNext s s.halt
  | fetchFault (h : s.run = .running) (hend : s.pc.toNat < 0x200 + s.progSize.val) (hpc : 4096 ≤ s.pc.toNat + 1) :
      StepNext s (s.sampleKeys.takeFault .fetchRange s.pc 0).clearLatches
  | unimpl (w : Word) (e : Reject) (h : Fetches s w) (hd : decodeWord w = .error e) :
      StepNext s ((handlerState s w).emit (.unimpl w)).endCycle
  | raised (w : Word) (i : Instr) (c : Cause) (h : Fetches s w) (hd : decodeWord w = .ok i)
      (hr : Raises (handlerState s w) i c) : StepNext s ((handlerState s w).raise c).clearLatches
  | done (w : Word) (i : Instr) (u : State) (h : Fetches s w) (hd : decodeWord w = .ok i)
      (hx : exec i (handlerState s w) = .next u) (hr : u.run = .running) (hq : Quiet (handlerState s w) u)
      (hno : ∀ c, ¬ Raises (handlerState s w) i c) : StepNext s u.endCycle

/-- The inversion lemma of `step`, on a next state. -/
theorem step_next (s t : State) (hs : step s = .next t) : StepNext s t := by
  have hA := step_cases s
  rw [hs] at hA
  generalize hg : Host.Outcome.next t = r at hA
  cases hA with
  | idle h => cases hg; exact .idle h
  | halts h hend => cases hg; exact .halts h hend
  | fetchFault h hend hp => cases hg; exact .fetchFault h hend hp
  | executes w h =>
    obtain ⟨i, hd, e⟩ | ⟨i, hd, e⟩ := executeWord_cases w (handlerState s w) <;> rw [e] at hg
    · have hE := exec_cases i (handlerState s w)
      cases hx : exec i (handlerState s w) with
      | next u =>
        rw [hx] at hg hE
        cases hg
        cases hE with
        | raised c hr => rw [endCycle_stopped _ (by simp)]; exact .raised w i c h hd hr
        | done _ hq hno => exact .done w i u h hd hx (hq.1.2.1.trans h.1) hq hno
      | fault f => rw [hx] at hg; cases hg
      | refused f => rw [hx] at hg; cases hg
    · cases hg; exact .unimpl w i h hd

/-- The condition of R312 on the state a handler sees is the one on the state before the step. -/
theorem faultCondition_of_raises (s : State) (w : Word) (i : Instr) (c : Cause) (h : Fetches s w)
    (hd : decodeWord w = .ok i) (hr : Raises (handlerState s w) i c) : FaultCondition s c := by
  have hdec : Decodes s i := ⟨w, h, hd⟩
  cases i <;> cases c <;> try exact hr.elim
  · exact ⟨hdec, hr⟩
  · exact ⟨⟨_, hdec⟩, hr⟩
  · exact .inl ⟨_, _, _, hdec, hr⟩
  · exact ⟨_, .inl hdec, hr⟩
  · exact ⟨_, .inr hdec, hr⟩
  · exact .inr (.inl ⟨_, hdec, hr⟩)
  · obtain ⟨k, hk, hle⟩ := hr; exact .inr (.inr ⟨_, .inl hdec, k, Nat.lt_succ_iff.mp hk, hle⟩)
  · obtain ⟨k, hk, hle⟩ := hr; exact .inr (.inr ⟨_, .inr hdec, k, Nat.lt_succ_iff.mp hk, hle⟩)

/-- And the other way, but for FetchRange, which no handler raises. -/
theorem raises_of_faultCondition (s : State) (c : Cause) (hc : FaultCondition s c) (hne : c ≠ .fetchRange) :
    ∃ w i, Fetches s w ∧ decodeWord w = .ok i ∧ Raises (handlerState s w) i c := by
  cases c
  · obtain ⟨⟨n, w, h, hd⟩, hs⟩ := hc; exact ⟨w, _, h, hd, hs⟩
  · obtain ⟨⟨w, h, hd⟩, hs⟩ := hc; exact ⟨w, _, h, hd, hs⟩
  · obtain ⟨x, y, n, ⟨w, h, hd⟩, hs⟩ | ⟨x, ⟨w, h, hd⟩, hs⟩ | ⟨x, ⟨w, h, hd⟩ | ⟨w, h, hd⟩, k, hk, hle⟩ := hc
    · exact ⟨w, _, h, hd, hs⟩
    · exact ⟨w, _, h, hd, hs⟩
    · exact ⟨w, _, h, hd, k, Nat.lt_succ_iff.mpr hk, hle⟩
    · exact ⟨w, _, h, hd, k, Nat.lt_succ_iff.mpr hk, hle⟩
  · exact absurd rfl hne
  · obtain ⟨x, ⟨w, h, hd⟩ | ⟨w, h, hd⟩, hs⟩ := hc <;> exact ⟨w, _, h, hd, hs⟩

/-- The end of a cycle does not read PROG_SIZE (R40). -/
theorem endCycle_withProgSize (n : Fin (Config.progMax + 1)) (s : State) :
    (withProgSize n s).endCycle = withProgSize n s.endCycle := by
  by_cases h : s.run = .running
  · rw [endCycle_running s h, endCycle_running (withProgSize n s) h]
  · rw [endCycle_stopped s h, endCycle_stopped (withProgSize n s) h]; rfl

/-- The beeps after the end of an executed cycle: one more when ST went down (R141). -/
theorem beeps_endCycle (s : State) (h : s.run = .running) : beeps s.endCycle = beeps s + min s.ST.toNat 1 := by
  rw [endCycle_running s h]
  unfold beeps
  show List.count _ ((if s.ST = 0 then [] else [Event.beep]) ++ s.io.events) = _
  by_cases h0 : s.ST = 0
  · rw [if_pos h0, h0]; simp
  · have : s.ST.toNat ≠ 0 := fun h' => h0 (BitVec.eq_of_toNat_eq (by simpa using h'))
    rw [if_neg h0]; simp; omega

/-! ## Runs -/

/-- A run of k + 1 steps that answers a state is a step that does, and a run of k from there. -/
theorem core_run_succ (M : Host.Core) (k : Nat) (s t : M.State) :
    M.run (k + 1) s = .next t ↔ ∃ u, M.step s = .next u ∧ M.run k u = .next t := by
  rw [Host.Core.run]
  cases M.step s with
  | next u =>
    constructor
    · intro hk; exact ⟨u, rfl, hk⟩
    · rintro ⟨v, hv, hk⟩; cases hv; exact hk
  | fault f =>
    constructor
    · intro hk; cases hk
    · rintro ⟨v, hv, _⟩; cases hv
  | refused f =>
    constructor
    · intro hk; cases hk
    · rintro ⟨v, hv, _⟩; cases hv

/-- The same of this machine, in the name of its own step. -/
theorem run_succ (k : Nat) (s t : State) :
    Sys2Proof.core.run (k + 1) s = .next t ↔ ∃ u : State, step s = .next u ∧ Sys2Proof.core.run k u = .next t :=
  core_run_succ Sys2Proof.core k s t

/-- A machine that is not Running stays as it is along a run (R144). -/
theorem run_idle (k : Nat) (s : State) (h : s.run ≠ .running) : Sys2Proof.core.run k s = .next s := by
  induction k with
  | zero => rfl
  | succ k ih => exact (run_succ k s s).mpr ⟨s, step_idle s h, ih⟩
end Sys2Proof.Laws
end

