-- ==== Sys2Proof/Laws/PerInstr.lean ====
section
/-! SUPPORT. What holds of every instruction as syntax, one lemma per constructor. RowMatch: the word the encoder
writes selects the instruction's own row of the opcode map, `(op & mask) == match` (R109). -/

namespace Sys2Proof.Laws

/-! ## A word masked, shape by shape -/

theorem and_nnn (h a : Nibble) (nnn b : Addr12) :
    (h ++ nnn : Word) &&& (a ++ b : Word) = (h &&& a) ++ (nnn &&& b) := BitVec.and_append

theorem and_xnn (h x a b : Nibble) (nn c : Byte) :
    (h ++ x ++ nn : Word) &&& (a ++ b ++ c : Word) = (h &&& a) ++ (x &&& b) ++ (nn &&& c) := by
  refine BitVec.and_append.trans ?_
  rw [BitVec.and_append]

theorem and_xyn (h x y n a b c d : Nibble) :
    (h ++ x ++ y ++ n : Word) &&& (a ++ b ++ c ++ d : Word) = (h &&& a) ++ (x &&& b) ++ (y &&& c) ++ (n &&& d) := by
  refine BitVec.and_append.trans ?_
  rw [BitVec.and_append, BitVec.and_append]

namespace RowMatch

def Statement (i : Instr) : Prop := encodeWord i &&& i.row.2 = i.row.1

/-- Masks 0xF000 over `h ‖ nnn`. -/
theorem of_nnn (h : Nibble) (nnn : Addr12) : (h ++ nnn : Word) &&& 0xF000#16 = (h &&& 0xF#4) ++ 0x000#12 := by
  rw [show 0xF000#16 = (0xF#4 ++ 0x000#12 : Word) by decide, and_nnn]
  simp

/-- Masks 0xF000 over `h ‖ x ‖ nn`. -/
theorem of_xnn (h x : Nibble) (nn : Byte) :
    (h ++ x ++ nn : Word) &&& 0xF000#16 = (h &&& 0xF#4) ++ 0x0#4 ++ 0x00#8 := by
  rw [show 0xF000#16 = (0xF#4 ++ 0x0#4 ++ 0x00#8 : Word) by decide, and_xnn]
  simp

/-- Masks 0xF0FF over `h ‖ x ‖ nn`. -/
theorem of_x (h x : Nibble) (nn : Byte) :
    (h ++ x ++ nn : Word) &&& 0xF0FF#16 = (h &&& 0xF#4) ++ 0x0#4 ++ (nn &&& 0xFF#8) := by
  rw [show 0xF0FF#16 = (0xF#4 ++ 0x0#4 ++ 0xFF#8 : Word) by decide, and_xnn]
  simp only [BitVec.and_zero]

/-- Masks 0xF000 over `h ‖ x ‖ y ‖ n`. -/
theorem of_xyn (h x y n : Nibble) :
    (h ++ x ++ y ++ n : Word) &&& 0xF000#16 = (h &&& 0xF#4) ++ 0x0#4 ++ 0x0#4 ++ 0x0#4 := by
  rw [show 0xF000#16 = (0xF#4 ++ 0x0#4 ++ 0x0#4 ++ 0x0#4 : Word) by decide, and_xyn]
  simp

/-- Masks 0xF00F over `h ‖ x ‖ y ‖ n`. -/
theorem of_xy (h x y n : Nibble) :
    (h ++ x ++ y ++ n : Word) &&& 0xF00F#16 = (h &&& 0xF#4) ++ 0x0#4 ++ 0x0#4 ++ (n &&& 0xF#4) := by
  rw [show 0xF00F#16 = (0xF#4 ++ 0x0#4 ++ 0x0#4 ++ 0xF#4 : Word) by decide, and_xyn]
  simp only [BitVec.and_zero]

theorem cls : Statement .cls := rfl
theorem ret : Statement .ret := rfl
theorem jp (nnn : Addr12) : Statement (.jp nnn) := (of_nnn _ nnn).trans rfl
theorem call (nnn : Addr12) : Statement (.call nnn) := (of_nnn _ nnn).trans rfl
theorem seImm (x : Nibble) (nn : Byte) : Statement (.seImm x nn) := (of_xnn _ x nn).trans rfl
theorem sneImm (x : Nibble) (nn : Byte) : Statement (.sneImm x nn) := (of_xnn _ x nn).trans rfl
theorem seReg (x y n : Nibble) : Statement (.seReg x y n) := (of_xyn _ x y n).trans rfl
theorem ldImm (x : Nibble) (nn : Byte) : Statement (.ldImm x nn) := (of_xnn _ x nn).trans rfl
theorem addImm (x : Nibble) (nn : Byte) : Statement (.addImm x nn) := (of_xnn _ x nn).trans rfl
theorem ldReg (x y : Nibble) : Statement (.ldReg x y) := (of_xy _ x y _).trans rfl
theorem orReg (x y : Nibble) : Statement (.orReg x y) := (of_xy _ x y _).trans rfl
theorem andReg (x y : Nibble) : Statement (.andReg x y) := (of_xy _ x y _).trans rfl
theorem xorReg (x y : Nibble) : Statement (.xorReg x y) := (of_xy _ x y _).trans rfl
theorem addReg (x y : Nibble) : Statement (.addReg x y) := (of_xy _ x y _).trans rfl
theorem sub (x y : Nibble) : Statement (.sub x y) := (of_xy _ x y _).trans rfl
theorem shr (x y : Nibble) : Statement (.shr x y) := (of_xy _ x y _).trans rfl
theorem subn (x y : Nibble) : Statement (.subn x y) := (of_xy _ x y _).trans rfl
theorem shl (x y : Nibble) : Statement (.shl x y) := (of_xy _ x y _).trans rfl
theorem sneReg (x y n : Nibble) : Statement (.sneReg x y n) := (of_xyn _ x y n).trans rfl
theorem ldI (nnn : Addr12) : Statement (.ldI nnn) := (of_nnn _ nnn).trans rfl
theorem jpV0 (nnn : Addr12) : Statement (.jpV0 nnn) := (of_nnn _ nnn).trans rfl
theorem rnd (x : Nibble) (nn : Byte) : Statement (.rnd x nn) := (of_xnn _ x nn).trans rfl
theorem drw (x y n : Nibble) : Statement (.drw x y n) := (of_xyn _ x y n).trans rfl
theorem skp (x : Nibble) : Statement (.skp x) := (of_x _ x _).trans rfl
theorem sknp (x : Nibble) : Statement (.sknp x) := (of_x _ x _).trans rfl
theorem ldVxDT (x : Nibble) : Statement (.ldVxDT x) := (of_x _ x _).trans rfl
theorem ldVxK (x : Nibble) : Statement (.ldVxK x) := (of_x _ x _).trans rfl
theorem ldDTVx (x : Nibble) : Statement (.ldDTVx x) := (of_x _ x _).trans rfl
theorem ldSTVx (x : Nibble) : Statement (.ldSTVx x) := (of_x _ x _).trans rfl
theorem addI (x : Nibble) : Statement (.addI x) := (of_x _ x _).trans rfl
theorem ldF (x : Nibble) : Statement (.ldF x) := (of_x _ x _).trans rfl
theorem ldB (x : Nibble) : Statement (.ldB x) := (of_x _ x _).trans rfl
theorem ldMemVx (x : Nibble) : Statement (.ldMemVx x) := (of_x _ x _).trans rfl
theorem ldVxMem (x : Nibble) : Statement (.ldVxMem x) := (of_x _ x _).trans rfl

end RowMatch

end Sys2Proof.Laws
end

