-- ==== Sys2Proof/Laws/Reset.lean ====
section
/-! SUPPORT. What a reset leaves, and that State.reset is the reset with the empty image. -/

namespace Sys2Proof.Laws

open Sys2Proof.Machine Sys2Proof.Safety

/-- A reset with an image that fits (R340). -/
theorem resetTo_fits (s : State) (p : Config.ResetParams) (prog : List Byte) (h : prog.length < Config.progMax + 1) :
    s.resetTo p prog =
      { s with V := p.V, I := p.I, pc := 0x200, sp := 0, S := p.S, DT := 0, ST := 0
               M := resetMemory p prog, progSize := ⟨prog.length, h⟩, run := .running
               faultCause := 0, faultPc := 0, faultOp := 0, op := 0, K := 0 } := by
  rw [State.resetTo, dif_pos h]

/-- A reset with an oversized image (R341). -/
theorem resetTo_oversized (s : State) (p : Config.ResetParams) (prog : List Byte)
    (h : ¬ prog.length < Config.progMax + 1) :
    s.resetTo p prog = { s with run := .rejected, faultCause := 0, faultPc := 0, faultOp := 0 } := by
  rw [State.resetTo, dif_neg h]

/-- Memory after a reset is in canonical form. -/
theorem wf_resetMemory (p : Config.ResetParams) (prog : List Byte) (h : prog.length ≤ 0xE00) :
    (resetMemory p prog).wf = true := by
  refine wf_writeAll _ _ _ (wf_writeAll _ _ _ (wf_ofFun _) ?_) ?_
  · simp
  · show 0x200 + _ ≤ _
    omega

/-- The chosen FONT is the default glyph table. -/
theorem chosen_font : chosenParams.font.toList = fontBytes := rfl

/-- MEM_FILL's choice and FONT's default are what an unlisted address reads as, so that reset memory lists nothing. -/
theorem resetMemory_chosen_read (b : Nat) : (resetMemory chosenParams []).read b = Memory.unlisted b := by
  have hm : resetMemory chosenParams [] = Memory.writeAll (Memory.ofFun chosenParams.memFill) 0 fontBytes := by
    rw [resetMemory, chosen_font, Memory.writeAll]
  rw [hm, read_writeAll, if_pos (Nat.zero_le b), Nat.sub_zero, Memory.unlisted, List.getD_eq_getElem?_getD]
  by_cases h : b < 4096
  · rw [read_ofFun _ _ h]; rfl
  · have hl : fontBytes[b]? = none := List.getElem?_eq_none (by have : fontBytes.length = 80 := rfl; omega)
    rw [hl, Memory.ofFun, read_map_filter, if_neg (by rw [List.mem_range]; exact h), Memory.unlisted,
      List.getD_eq_getElem?_getD, hl]
    rfl

theorem resetMemory_chosen : resetMemory chosenParams [] = [] :=
  memory_ext _ _ (wf_resetMemory _ _ (Nat.zero_le _)) rfl resetMemory_chosen_read

/-- State.reset is `reset(PROG)` with the empty image and the model's choice of the OPEN parameters (log entry 4). -/
theorem reset_is_resetTo : State.reset.resetTo chosenParams [] = State.reset := by
  rw [resetTo_fits _ _ _ (by decide), resetMemory_chosen]
  rfl

end Sys2Proof.Laws
end

