-- ==== Sys2Proof/Tests/Slice0.lean ====
section
/-! SUPPORT. Tests of the model, each about one step or one word. Expected results are taken from spec/95_test_vectors.md
(the vector's name stands in the test's comment), from an instruction rule's own example or from the encodings of
spec/30_encoding.md; after them, a state and operands that meet the hypotheses of every obligation that has some. -/

namespace Sys2Proof.Tests

open Sys2Proof.Machine Sys2Proof.Safety

/-! ## Well-formed instructions: each check refuses an ill-formed term (R112) -/

theorem test_wf_seReg : Instr.wellFormed (.seReg 1 2 3) = false ∧ Instr.wellFormed (.seReg 1 2 0) = true := by decide
theorem test_wf_sneReg : Instr.wellFormed (.sneReg 1 2 0xF) = false ∧ Instr.wellFormed (.sneReg 1 2 0) = true := by
  decide
theorem test_wf_shr : Instr.wellFormed (.shr 1 2) = false ∧ Instr.wellFormed (.shr 1 0) = true := by decide
theorem test_wf_shl : Instr.wellFormed (.shl 1 9) = false ∧ Instr.wellFormed (.shl 1 0) = true := by decide

/-! ## Decoding: a word written out from the encoding of every row (R109), handed over as bytes, high byte first -/

theorem test_decode_zero_family :
    decode [0x00, 0xE0] = .ok (.cls, []) ∧ decode [0x00, 0xEE, 0x12] = .ok (.ret, [0x12]) := by decide

theorem test_decode_flow :
    decode [0x12, 0x34] = .ok (.jp 0x234, []) ∧ decode [0x22, 0x04] = .ok (.call 0x204, []) ∧
    decode [0x33, 0x42] = .ok (.seImm 3 0x42, []) ∧ decode [0x43, 0x00] = .ok (.sneImm 3 0x00, []) ∧
    decode [0x51, 0x2F] = .ok (.seReg 1 2 0xF, []) ∧ decode [0x91, 0x25] = .ok (.sneReg 1 2 5, []) ∧
    decode [0xBF, 0xFF] = .ok (.jpV0 0xFFF, []) := by decide

theorem test_decode_loads_and_logic :
    decode [0x6A, 0xFF] = .ok (.ldImm 0xA 0xFF, []) ∧ decode [0x71, 0x05] = .ok (.addImm 1 0x05, []) ∧
    decode [0x81, 0x20] = .ok (.ldReg 1 2, []) ∧ decode [0x81, 0x21] = .ok (.orReg 1 2, []) ∧
    decode [0x81, 0x22] = .ok (.andReg 1 2, []) ∧ decode [0x81, 0x23] = .ok (.xorReg 1 2, []) := by decide

theorem test_decode_arithmetic :
    decode [0x8F, 0x24] = .ok (.addReg 0xF 2, []) ∧ decode [0x81, 0xF5] = .ok (.sub 1 0xF, []) ∧
    decode [0x81, 0x96] = .ok (.shr 1 9, []) ∧ decode [0x81, 0x27] = .ok (.subn 1 2, []) ∧
    decode [0x81, 0x2E] = .ok (.shl 1 2, []) ∧ decode [0xC3, 0x0F] = .ok (.rnd 3 0x0F, []) := by decide

theorem test_decode_display_and_keys :
    decode [0xD1, 0x2F] = .ok (.drw 1 2 0xF, []) ∧ decode [0xE2, 0x9E] = .ok (.skp 2, []) ∧
    decode [0xE2, 0xA1] = .ok (.sknp 2, []) := by decide

theorem test_decode_f_family :
    decode [0xF3, 0x07] = .ok (.ldVxDT 3, []) ∧ decode [0xF5, 0x0A] = .ok (.ldVxK 5, []) ∧
    decode [0xF1, 0x15] = .ok (.ldDTVx 1, []) ∧ decode [0xF1, 0x18] = .ok (.ldSTVx 1, []) ∧
    decode [0xF2, 0x1E] = .ok (.addI 2, []) ∧ decode [0xF4, 0x29] = .ok (.ldF 4, []) ∧
    decode [0xF3, 0x33] = .ok (.ldB 3, []) ∧ decode [0xFF, 0x55] = .ok (.ldMemVx 0xF, []) ∧
    decode [0xF2, 0x65] = .ok (.ldVxMem 2, []) := by decide

theorem test_decode_index : decode [0xA2, 0xF0] = .ok (.ldI 0x2F0, []) := by decide

/-- Vectors U2 to U7, and a byte alone. -/
theorem test_decode_rejects :
    decode [0x01, 0xE0] = .error .unlisted0 ∧ decode [0x0F, 0xEE] = .error .unlisted0 ∧
    decode [0x81, 0x28] = .error .unlisted8 ∧ decode [0x81, 0x2F] = .error .unlisted8 ∧
    decode [0xE0, 0x00] = .error .unlistedE ∧ decode [0xF0, 0xFF] = .error .unlistedF ∧
    decode [0x60] = .error .tooShort := by decide

/-- Words written out bit by bit from the rows' layouts. -/
theorem test_decode_bits :
    decodeWord 0b0011_0011_01000010 = .ok (.seImm 3 0x42) ∧ decodeWord 0b1000_0001_0010_0111 = .ok (.subn 1 2) ∧
    decodeWord 0b1010_001011110000 = .ok (.ldI 0x2F0) ∧ decodeWord 0b1101_0000_0001_0010 = .ok (.drw 0 1 2) ∧
    decodeWord 0b1111_0101_00001010 = .ok (.ldVxK 5) := by decide

theorem test_decodeTableWord : decodeTableWord 16 0x8127 = some (.subn 1 2) ∧ decodeTableWord 16 0x8128 = none := by
  decide

/-! ## One step -/

/-- What `f` reads after one step that runs the word `w` from state `s`; none if the step answers no state. -/
def see {α : Type} (w : Nat) (s : State) (f : State → α) : Option α :=
  match step (s.withFetchWord 16 w) with
  | .next t => some (f t)
  | .fault _ => none
  | .refused _ => none

/-- State.reset with some general registers set. -/
def regs (vs : List (Nibble × Byte)) : State := vs.foldl (fun s p => s.setV p.1 p.2) State.reset

/-- Keys held on the port. -/
def held (k : BitVec 16) (s : State) : State := s.setIo { s.io with keys := k }

/-- A display of 64 by 32 pixels, blank. -/
def screen (s : State) : State := s.setIo { s.io with surface := some (64, 32), events := .clear :: s.io.events }

/-- Bytes in memory. -/
def bytes (a : Nat) (bs : List Byte) (s : State) : State := s.setM (Memory.writeAll s.M a bs)

/-- The fault registers after a step, with run and pc. -/
def faultView (s : State) : RunState × BitVec 3 × Word × Word × Word := (s.run, s.faultCause, s.faultPc, s.faultOp, s.pc)

/-- D1. -/
theorem test_cls : see 0x00E0 State.reset (fun t => (t.pc, t.io.events)) = some (0x202, [.present, .clear]) := by decide
/-- F1. -/
theorem test_ret :
    see 0x00EE { State.reset with sp := 1, S := State.reset.S.set 0 0x202, pc := 0x204 } (fun t => (t.pc, t.sp)) =
      some (0x202, 0) := by decide
/-- F3. -/
theorem test_ret_underflow :
    see 0x00EE State.reset faultView = some (.faulted, 2, 0x200, 0x00EE, 0x200) := by decide
/-- F4. -/
theorem test_jp : see 0x1234 State.reset (·.pc) = some 0x234 := by decide
/-- F7. -/
theorem test_call :
    see 0x2300 { State.reset with sp := 15 } (fun t => (t.pc, t.sp, t.stackEntry 16)) =
      some (0x300, 16, some 0x202) := by decide
/-- F8. -/
theorem test_call_overflow :
    see 0x2300 { State.reset with sp := 16 } faultView = some (.faulted, 1, 0x200, 0x2300, 0x200) := by decide
/-- F9, F10. -/
theorem test_seImm :
    see 0x3342 (regs [(3, 0x42)]) (·.pc) = some 0x204 ∧ see 0x3343 (regs [(3, 0x42)]) (·.pc) = some 0x202 := by decide
/-- F11, F12. -/
theorem test_sneImm :
    see 0x4342 (regs [(3, 0x42)]) (·.pc) = some 0x202 ∧ see 0x4300 (regs [(3, 0x42)]) (·.pc) = some 0x204 := by decide
/-- F14, F15. -/
theorem test_seReg :
    see 0x512F (regs [(1, 7), (2, 7)]) (·.pc) = some 0x204 ∧ see 0x5120 (regs [(1, 7), (2, 8)]) (·.pc) = some 0x202 := by
  decide
/-- F17, F18. -/
theorem test_sneReg :
    see 0x9120 (regs [(1, 7), (2, 8)]) (·.pc) = some 0x204 ∧ see 0x9125 (regs [(1, 7), (2, 7)]) (·.pc) = some 0x202 := by
  decide
/-- F20. -/
theorem test_jpV0 : see 0xBFFF (regs [(0, 0xFF)]) (·.pc) = some 0x10FE := by decide
/-- A1. -/
theorem test_ldImm : see 0x6AFF State.reset (fun t => (t.getV 0xA, t.getV VF)) = some (0xFF, 0) := by decide
/-- A3, A4. -/
theorem test_addImm :
    see 0x71FF (regs [(1, 1)]) (fun t => (t.getV 1, t.getV VF)) = some (0, 0) ∧
    see 0x7F01 (regs [(0xF, 0xFF)]) (·.getV VF) = some 0 := by decide
/-- A5. -/
theorem test_ldReg : see 0x8120 (regs [(2, 0x33)]) (·.getV 1) = some 0x33 := by decide
/-- A7. -/
theorem test_orReg :
    see 0x8121 (regs [(1, 1), (2, 2), (0xF, 0x77)]) (fun t => (t.getV 1, t.getV VF)) = some (3, 0x77) := by decide
/-- A8. -/
theorem test_andReg : see 0x8122 (regs [(1, 0x3C), (2, 0x0F)]) (·.getV 1) = some 0x0C := by decide
/-- A9, A9b. -/
theorem test_xorReg :
    see 0x8123 (regs [(1, 0x3C), (2, 0x0F)]) (·.getV 1) = some 0x33 ∧ see 0x8113 (regs [(1, 0x5A)]) (·.getV 1) = some 0 := by
  decide
/-- A11, A15. -/
theorem test_addReg :
    see 0x8124 (regs [(1, 0xFF), (2, 1)]) (fun t => (t.getV 1, t.getV VF)) = some (0, 1) ∧
    see 0x8F24 (regs [(0xF, 0xFF), (2, 1)]) (·.getV VF) = some 2 := by decide
/-- A17, A19. -/
theorem test_addReg_flag_operand :
    see 0x81F4 (regs [(1, 0xFF), (0xF, 1)]) (fun t => (t.getV 1, t.getV VF)) = some (0, 1) ∧
    see 0x8FF4 (regs [(0xF, 0x80)]) (·.getV VF) = some 2 := by decide
/-- A23, A22. -/
theorem test_sub :
    see 0x8125 (regs [(1, 7), (2, 7)]) (fun t => (t.getV 1, t.getV VF)) = some (0, 0) ∧
    see 0x8125 (regs [(1, 3), (2, 5)]) (fun t => (t.getV 1, t.getV VF)) = some (0xFE, 0) := by decide
/-- A25, A27. -/
theorem test_sub_flag_operand :
    see 0x8F25 (regs [(0xF, 5), (2, 3)]) (·.getV VF) = some 0xFE ∧
    see 0x81F5 (regs [(1, 5), (0xF, 3)]) (fun t => (t.getV 1, t.getV VF)) = some (4, 1) := by decide
/-- A32, A33. -/
theorem test_shr :
    see 0x8196 (regs [(1, 3), (9, 0xFF)]) (fun t => (t.getV 1, t.getV VF)) = some (1, 1) ∧
    see 0x8F26 (regs [(0xF, 5)]) (·.getV VF) = some 0 := by decide
/-- A34, A38. -/
theorem test_subn :
    see 0x8127 (regs [(1, 3), (2, 5)]) (fun t => (t.getV 1, t.getV VF)) = some (2, 1) ∧
    see 0x81F7 (regs [(1, 3), (0xF, 5)]) (fun t => (t.getV 1, t.getV VF)) = some (0xFE, 1) := by decide
/-- A40, A42. -/
theorem test_shl :
    see 0x812E (regs [(1, 0x81)]) (fun t => (t.getV 1, t.getV VF)) = some (2, 1) ∧
    see 0x8F2E (regs [(0xF, 0x81)]) (·.getV VF) = some 2 := by decide
/-- A45: the environment delivers 0xA7. -/
theorem test_rnd :
    see 0xC30F (State.reset.setIo { State.reset.io with rndFeed := [0xA7] }) (fun t => (t.getV 3, t.io.rndFeed)) =
      some (0x07, []) := by decide
/-- M1. -/
theorem test_ldI : see 0xA2F0 { State.reset with I := 0xFFFF } (·.I) = some 0x02F0 := by decide
/-- M3, M4. -/
theorem test_addI :
    see 0xF21E ({ regs [(2, 1)] with I := 0xFFFF }) (·.I) = some 0 ∧
    see 0xF21E ({ regs [(2, 1), (0xF, 0x55)] with I := 0x0FFF }) (fun t => (t.I, t.getV VF, t.run)) =
      some (0x1000, 0x55, .running) := by decide
/-- M16, M18. -/
theorem test_ldF :
    see 0xF429 (regs [(4, 0x0A)]) (·.I) = some 0x32 ∧ see 0xF429 (regs [(4, 0x10)]) (·.I) = some 0x50 := by decide
/-- M8: the last three bytes of memory. -/
theorem test_ldB :
    see 0xF333 ({ regs [(3, 123)] with I := 0xFFD }) (fun t => (t.M.readAll 0xFFD 3, t.I)) = some ([1, 2, 3], 0xFFD) := by
  decide
/-- M8b. -/
theorem test_ldB_range :
    see 0xF333 ({ regs [(3, 123)] with I := 0xFFE }) faultView = some (.faulted, 3, 0x200, 0xF333, 0x200) := by decide
/-- M9, with the byte after the last one stored. -/
theorem test_ldMemVx :
    see 0xF255 ({ regs [(0, 0x11), (1, 0x22), (2, 0x33), (3, 0x44)] with I := 0x300 }) (·.M.readAll 0x300 4) =
      some [0x11, 0x22, 0x33, 0] := by decide
/-- M11. -/
theorem test_ldMemVx_range :
    see 0xFF55 { State.reset with I := 0xFF1 } faultView = some (.faulted, 3, 0x200, 0xFF55, 0x200) := by decide
/-- M13. -/
theorem test_ldVxMem :
    see 0xF265 ({ bytes 0x300 [0x11, 0x22, 0x33, 0x44] State.reset with I := 0x300 })
      (fun t => (t.getV 0, t.getV 1, t.getV 2, t.getV 3)) = some (0x11, 0x22, 0x33, 0) := by decide
/-- M14. -/
theorem test_ldVxMem_all :
    see 0xFF65 ({ bytes 0x30F [0x9C] State.reset with I := 0x300 }) (fun t => (t.getV 0xE, t.getV VF)) =
      some (0, 0x9C) := by decide
/-- D5: bit 7 is column 0. -/
theorem test_drw :
    see 0xD121 (screen { bytes 0x300 [0x81] (regs [(1, 10), (2, 5)]) with I := 0x300 })
      (fun t => (t.getV VF, t.io.events.take 5)) =
      some (0, [.present, .setPixel 17 5 true, .getPixel 17 5 false, .setPixel 10 5 true, .getPixel 10 5 false]) := by
  decide
/-- D6 and D3's collision: the coordinate is VF before it is cleared; a pixel that was on goes off. -/
theorem test_drw_flag_coordinate :
    see 0xDF01 (screen { bytes 0x300 [0x80] (regs [(0xF, 3)]) with I := 0x300 }) (·.io.events.take 2) =
      some [.present, .setPixel 3 0 true] ∧
    see 0xD011 ((screen State.reset).setPixel 0 0 true) (fun t => (t.getV VF, t.io.kept 0 0, t.io.kept 3 0)) =
      some (1, some false, some true) := by decide
/-- D9 and U9: where nothing is kept, the answers are the ones the environment gives, and the rest of its feed stays. -/
theorem test_drw_oracle :
    see 0xD011 ((State.reset.setIo { State.reset.io with pixelFeed := [false, false, true, false, true] }))
      (fun t => (t.getV VF, t.io.pixelFeed, t.io.pixelDraws, t.io.events.take 3)) =
      some (1, [true], 0, [.present, .setPixel 3 0 true, .getPixel 3 0 false]) := by decide
/-- K1, K5. -/
theorem test_skp :
    see 0xE29E (held 0x0020 (regs [(2, 5)])) (·.pc) = some 0x204 ∧
    see 0xE29E (held 0xFFFF (regs [(2, 0x10)])) faultView = some (.faulted, 5, 0x200, 0xE29E, 0x200) := by decide
/-- K3, K4. -/
theorem test_sknp :
    see 0xE2A1 (regs [(2, 5)]) (·.pc) = some 0x204 ∧ see 0xE2A1 (held 0x0020 (regs [(2, 5)])) (·.pc) = some 0x202 := by
  decide
/-- K12. -/
theorem test_ldVxDT :
    see 0xF307 { State.reset with DT := 0x3C } (fun t => (t.getV 3, t.DT)) = some (0x3C, 0x3B) := by decide
/-- K7 with K11's timer, K8. -/
theorem test_ldVxK :
    see 0xF50A ({ regs [(5, 0x77)] with DT := 5 }) (fun t => (t.pc, t.getV 5, t.DT)) = some (0x200, 0x77, 4) ∧
    see 0xF50A (held 0x0408 State.reset) (fun t => (t.pc, t.getV 5)) = some (0x202, 0x0A) := by decide
/-- K14. -/
theorem test_ldDTVx : see 0xF115 (regs [(1, 5)]) (·.DT) = some 4 := by decide
/-- K17, K18. -/
theorem test_ldSTVx :
    see 0xF118 (regs [(1, 1)]) (fun t => (t.ST, t.io.events)) = some (0, [.beep]) ∧
    see 0xF118 ({ State.reset with ST := 9 }) (fun t => (t.ST, t.io.events)) = some (0, []) := by decide
/-- U4, with both timers running. -/
theorem test_unimplemented :
    see 0x8128 { State.reset with DT := 1, ST := 2 } (fun t => (t.pc, t.DT, t.ST, t.io.events)) =
      some (0x202, 0, 1, [.beep, .unimpl 0x8128]) := by decide
/-- X1. -/
theorem test_empty_image_halts :
    (match step State.reset with | .next t => some (t.run, t.pc, t.io.events) | _ => none) =
      some (.halted, 0x200, []) := by decide

/-- A Running machine at the top of memory with the longest image (X3, X4). -/
def top (pc : Word) : State := { State.reset with pc := pc, progSize := 0xE00, DT := 7 }

/-- X3. -/
theorem test_fetch_range :
    (match step (top 0xFFF) with | .next t => some (faultView t, t.DT) | _ => none) =
      some ((.faulted, 4, 0xFFF, 0, 0xFFF), 7) := by decide
/-- X5: the glyph of 7 is at 0x023. -/
theorem test_reset_font : State.reset.M.readAll 0x023 5 = [0xF0, 0x10, 0x20, 0x40, 0x40] := by decide
/-- P1 is loaded byte for byte. -/
theorem test_load_program :
    (State.reset.loadProgram [0x60, 0x05, 0x61, 0x03, 0x80, 0x14]).progSize.val = 6 ∧
    (State.reset.loadProgram [0x60, 0x05, 0x61, 0x03, 0x80, 0x14]).run = .running := by decide

/-! ## The hypotheses of the obligations are met -/

/-- The state whose next step runs the word `w`. -/
def at200 (w : Nat) (s : State := State.reset) : State := s.withFetchWord 16 w

theorem test_witness_EncodeInvertsDecode : decodeWord 0x512F = .ok (.seReg 1 2 0xF) := by decide
theorem test_witness_RowsSelectOperations :
    decodeWord 0x8127 = .ok (.subn 1 2) ∧ (0x8128#16 &&& (Instr.row .cls).2 ≠ (Instr.row .cls).1) ∧
    0xF50A#16 &&& (Instr.row (.ldVxK 0)).2 = (Instr.row (.ldVxK 0)).1 := by decide
theorem test_witness_UnlistedWordsAreThese :
    decodeWord 0x0FFF = .error .unlisted0 ∧ decodeWord 0x800F = .error .unlisted8 ∧
    decodeWord 0xE09F = .error .unlistedE ∧ decodeWord 0xFF64 = .error .unlistedF := by decide
theorem test_witness_fetches_6005 : Fetches (at200 0x6005) 0x6005 := ⟨by decide, by decide, by decide, by decide⟩
theorem test_witness_StepRunsDecodedInstruction :
    Fetches (at200 0x6005) 0x6005 ∧ decodeWord 0x6005 = .ok (.ldImm 0 5) := ⟨test_witness_fetches_6005, by decide⟩
theorem test_witness_UnimplementedWordContinues :
    Fetches (at200 0x8128) 0x8128 ∧ decodeWord 0x8128 = .error .unlisted8 :=
  ⟨⟨by decide, by decide, by decide, by decide⟩, by decide⟩
theorem test_witness_HaltingTest_at_end :
    ((at200 0x6005).setPc 0x202).run = .running ∧
    0x200 + ((at200 0x6005).setPc 0x202).progSize.val ≤ ((at200 0x6005).setPc 0x202).pc.toNat := by decide
theorem test_witness_HaltingTest_below :
    (at200 0x6005).run = .running ∧ (at200 0x6005).pc.toNat < 0x200 + (at200 0x6005).progSize.val ∧
    ∃ t, step (at200 0x6005) = .next t := ⟨by decide, by decide, _, rfl⟩
theorem test_witness_TerminalStatesDoNothing : ({ State.reset with run := .faulted } : State).run ≠ .running := by decide
theorem test_witness_FetchRange_top :
    (top 0xFFF).run = .running ∧ (top 0xFFF).pc.toNat < 0x200 + (top 0xFFF).progSize.val ∧
    4096 ≤ (top 0xFFF).pc.toNat + 1 := by decide
theorem test_witness_FetchRange_below :
    (top 0xFFE).run = .running ∧ (top 0xFFE).pc.toNat < 0x200 + (top 0xFFE).progSize.val ∧
    (top 0xFFE).pc.toNat + 1 < 4096 := by decide
theorem test_witness_TimersDecayEachExecutedCycle :
    Fetches (at200 0x6005) 0x6005 ∧ ∃ u, executeWord 0x6005 (handlerState (at200 0x6005) 0x6005) = .next u ∧
      u.run = .running := ⟨test_witness_fetches_6005, _, rfl, rfl⟩
theorem test_witness_NoStepStops : ({ State.reset with sp := 16 } : State).sp.toNat ≤ 16 := by decide
theorem test_witness_FaultsArePrecise :
    (at200 0x00EE).run = .running ∧ ∃ t, step (at200 0x00EE) = .next t ∧ t.run = .faulted :=
  ⟨by decide, _, rfl, by decide⟩
theorem test_witness_FaultsExactly_none :
    (at200 0x6005).run = .running ∧ ∃ t, step (at200 0x6005) = .next t ∧ t.run ≠ .faulted :=
  ⟨by decide, _, rfl, by decide⟩
theorem test_witness_Fault_stackOverflow : FaultCondition (at200 0x2300 { State.reset with sp := 16 }) .stackOverflow :=
  ⟨⟨0x300, 0x2300, ⟨by decide, by decide, by decide, by decide⟩, by decide⟩, by decide⟩
theorem test_witness_Fault_stackUnderflow : FaultCondition (at200 0x00EE) .stackUnderflow :=
  ⟨⟨0x00EE, ⟨by decide, by decide, by decide, by decide⟩, by decide⟩, by decide⟩
theorem test_witness_Fault_memoryRange_drw : FaultCondition (at200 0xD012 { State.reset with I := 0xFFF }) .memoryRange :=
  .inl ⟨0, 1, 2, ⟨0xD012, ⟨by decide, by decide, by decide, by decide⟩, by decide⟩, 1, by decide, by decide⟩
theorem test_witness_Fault_memoryRange_ldB : FaultCondition (at200 0xF333 { State.reset with I := 0xFFE }) .memoryRange :=
  .inr (.inl ⟨3, ⟨0xF333, ⟨by decide, by decide, by decide, by decide⟩, by decide⟩, 2, by decide, by decide⟩)
theorem test_witness_Fault_memoryRange_store : FaultCondition (at200 0xFF55 { State.reset with I := 0xFF1 }) .memoryRange :=
  .inr (.inr ⟨0xF, .inl ⟨0xFF55, ⟨by decide, by decide, by decide, by decide⟩, by decide⟩, 15, by decide, by decide⟩)
theorem test_witness_Fault_memoryRange_load : FaultCondition (at200 0xF265 { State.reset with I := 0xFFE }) .memoryRange :=
  .inr (.inr ⟨2, .inr ⟨0xF265, ⟨by decide, by decide, by decide, by decide⟩, by decide⟩, 2, by decide, by decide⟩)
theorem test_witness_Fault_fetchRange : FaultCondition (top 0xFFF) .fetchRange := ⟨by decide, by decide, by decide⟩
theorem test_witness_Fault_keyRange : FaultCondition (at200 0xE29E (regs [(2, 0x10)])) .keyRange :=
  ⟨2, .inl ⟨0xE29E, ⟨by decide, by decide, by decide, by decide⟩, by decide⟩, by decide⟩
theorem test_witness_Fault_keyRange_sknp : FaultCondition (at200 0xE2A1 (regs [(2, 0xFF)])) .keyRange :=
  ⟨2, .inr ⟨0xE2A1, ⟨by decide, by decide, by decide, by decide⟩, by decide⟩, by decide⟩
theorem test_witness_StepKeepsMachineInvariant :
    Inv (at200 0xF333 { regs [(3, 123)] with I := 0xFFD }) ∧
    ∃ t, step (at200 0xF333 { regs [(3, 123)] with I := 0xFFD }) = .next t :=
  ⟨⟨by decide, by decide, by decide, by decide, fun _ => by decide, by decide⟩, _, rfl⟩

/-- One return address on the stack. -/
def called : State := { State.reset with sp := 1, S := State.reset.S.set 0 0x1000 }

theorem test_witness_StepKeepsFlowRange :
    FlowInv (at200 0x00EE called) ∧ ∃ t, step (at200 0x00EE called) = .next t := by
  refine ⟨⟨by decide, by decide, ?_⟩, _, rfl⟩
  intro k v h1 h2 h3
  have hk : k = 1 := by
    have h2' : k ≤ 1 := h2
    omega
  subst hk
  have h3' : some (0x1000#16) = some v := h3
  rw [← Option.some.inj h3']
  decide
theorem test_witness_ProgramSizeIsImmutable :
    (at200 0x6005).run = .running ∧ (at200 0x6005).pc.toNat < 0x200 + (at200 0x6005).progSize.val ∧
    (at200 0x6005).pc.toNat < 0x200 + (1 : Fin (Config.progMax + 1)).val ∧ ∃ t, step (at200 0x6005) = .next t :=
  ⟨by decide, by decide, by decide, _, rfl⟩
theorem test_witness_OnlyCallAndReturn_call :
    ∃ t, step (at200 0x2300) = .next t ∧ t.sp ≠ (at200 0x2300).sp ∧ t.stackEntry 1 ≠ (at200 0x2300).stackEntry 1 :=
  ⟨_, rfl, by decide, by decide⟩
theorem test_witness_OnlyCallAndReturn_ret :
    ∃ t, step (at200 0x00EE called) = .next t ∧ t.sp ≠ (at200 0x00EE called).sp := ⟨_, rfl, by decide⟩
theorem test_witness_OnlyIndexInstructionsWriteI :
    (∃ t, step (at200 0xA2F0) = .next t ∧ t.I ≠ (at200 0xA2F0).I) ∧
    (∃ t, step (at200 0xF21E (regs [(2, 1)])) = .next t ∧ t.I ≠ (at200 0xF21E (regs [(2, 1)])).I) ∧
    (∃ t, step (at200 0xF429 (regs [(4, 1)])) = .next t ∧ t.I ≠ (at200 0xF429 (regs [(4, 1)])).I) :=
  ⟨⟨_, rfl, by decide⟩, ⟨_, rfl, by decide⟩, ⟨_, rfl, by decide⟩⟩
theorem test_witness_OnlyStoresChangeMemory :
    (∃ t, step (at200 0xF333 { regs [(3, 9)] with I := 0x300 }) = .next t ∧
      t.M.read 0x302 ≠ (at200 0xF333 { regs [(3, 9)] with I := 0x300 }).M.read 0x302) ∧
    (∃ t, step (at200 0xF055 { regs [(0, 9)] with I := 0x300 }) = .next t ∧
      t.M.read 0x300 ≠ (at200 0xF055 { regs [(0, 9)] with I := 0x300 }).M.read 0x300) :=
  ⟨⟨_, rfl, by decide⟩, ⟨_, rfl, by decide⟩⟩
theorem test_witness_OnlyFlagWritersChangeVF :
    ∃ t, step (at200 0x8126 (regs [(1, 5)])) = .next t ∧ t.getV VF ≠ (at200 0x8126 (regs [(1, 5)])).getV VF :=
  ⟨_, rfl, by decide⟩
theorem test_witness_SelfJumpRunsForever : Decodes (at200 0x1200) (.jp ((at200 0x1200).pc.setWidth 12)) :=
  ⟨0x1200, ⟨by decide, by decide, by decide, by decide⟩, by decide⟩
theorem test_witness_SkipsOnComparison : ((at200 0x3342).setPc 0x1001).pcI.toNat ≤ 0xFFF := by decide
theorem test_witness_CallPushesReturnAddress :
    ({ State.reset with sp := 15 } : State).sp.toNat < 16 ∧ ({ State.reset with sp := 16 } : State).sp = 16 := by decide
theorem test_witness_ReturnPopsReturnAddress :
    1 ≤ ({ State.reset with sp := 16 } : State).sp.toNat ∧ ({ State.reset with sp := 16 } : State).sp.toNat ≤ 16 ∧
    1 ≤ called.sp.toNat ∧ called.sp.toNat ≤ 16 ∧ State.reset.sp = 0 := by decide
theorem test_witness_MissingStackEntryStops : 16 < ({ State.reset with sp := 17 } : State).sp.toNat := by decide
theorem test_witness_ReturnComesBackAfterCall : ({ State.reset with sp := 15 } : State).sp.toNat < 16 := by decide
theorem test_witness_flag_operand_cases :
    ((1 : Nibble) ≠ VF ∧ (2 : Nibble) ≠ VF) ∧ ((0xF : Nibble) = VF ∧ (2 : Nibble) ≠ VF) ∧
    ((1 : Nibble) ≠ VF ∧ (0xF : Nibble) = VF) ∧ ((0xF : Nibble) = VF ∧ (0xF : Nibble) = VF) := by decide
theorem test_witness_RandomByteIsMasked :
    (State.reset.setIo { State.reset.io with rndFeed := [0xA7] }).io.rndFeed = 0xA7 :: [] ∧
    State.reset.io.rndFeed = [] := by decide
theorem test_witness_DrawTogglesSpritePixels_fits :
    ∀ k, k < (1 : Nibble).toNat → ({ State.reset with I := 0xFFF } : State).I.toNat + k < 4096 := by decide
theorem test_witness_DrawTogglesSpritePixels_unknown_surface :
    State.reset.io.surface = none ∧
    (spritePixels (bytes 0x300 [0x81] State.reset).M 0x300 1 0 0).length = 2 ∧
    ({ State.reset.io with pixelFeed := [true] } : Interface).surface = none := by decide
theorem test_witness_DrawTogglesSpritePixels_range :
    ∃ k, k < (2 : Nibble).toNat ∧ 4096 ≤ ({ State.reset with I := 0xFFF } : State).I.toNat + k :=
  ⟨1, by decide, by decide⟩
theorem test_witness_DisplayKeepsWrittenPixels :
    (screen State.reset).io.surface = some (64, 32) ∧ 63 < 64 ∧ 31 < 32 ∧ ((0, 0) : Nat × Nat) ≠ (63, 31) := by decide
theorem test_witness_SecondDrawUndoesTheFirst :
    (screen State.reset).io.surface = some (64, 32) ∧ (0 : Nibble) ≠ VF ∧ (1 : Nibble) ≠ VF ∧
    (∀ k, k < (5 : Nibble).toNat → (screen State.reset).I.toNat + k < 4096) ∧
    (∀ p ∈ spritePixels (screen State.reset).M (screen State.reset).I.toNat (5 : Nibble).toNat
      ((screen State.reset).getV 0).toNat ((screen State.reset).getV 1).toNat, p.1 < 64 ∧ p.2 < 32) := by decide
theorem test_witness_KeySkipsTestTheSample :
    ((regs [(2, 0xF)]).getV 2).toNat ≤ 0xF ∧ 0xF < ((regs [(2, 0x10)]).getV 2).toNat := by decide
theorem test_witness_KeyWait_none : ∀ k, k < 16 → State.reset.K.getLsbD k = false := by decide
theorem test_witness_KeyWait_held :
    10 < 16 ∧ ({ State.reset with K := 0x0408 } : State).K.getLsbD 10 = true ∧
    ∀ j, j < 16 → 10 < j → ({ State.reset with K := 0x0408 } : State).K.getLsbD j = false := by decide
theorem test_witness_WrittenTimer :
    Decodes (at200 0xF115) (.ldDTVx 1) ∧ Decodes (at200 0xF118) (.ldSTVx 1) :=
  ⟨⟨0xF115, ⟨by decide, by decide, by decide, by decide⟩, by decide⟩,
    ⟨0xF118, ⟨by decide, by decide, by decide, by decide⟩, by decide⟩⟩

theorem test_witness_TimersCountDownAlongRuns :
    ∃ t : State, Sys2Proof.core.run 1 (at200 0x6005 { State.reset with DT := 3, ST := 3 }) = .next t ∧
      t.run = .running ∧
      (∀ j, j < 1 → ∀ u : State, Sys2Proof.core.run j (at200 0x6005 { State.reset with DT := 3, ST := 3 }) = .next u →
        ∀ x, ¬ Decodes u (.ldDTVx x) ∧ ¬ Decodes u (.ldSTVx x)) := by
  refine ⟨_, rfl, by decide, ?_⟩
  intro j hj u hu x
  have h0 : j = 0 := by omega
  subst h0
  cases hu
  have hf : Fetches (at200 0x6005 { State.reset with DT := 3, ST := 3 }) 0x6005 :=
    ⟨by decide, by decide, by decide, by decide⟩
  constructor
  · rintro ⟨w, hw, hd⟩
    rw [Laws.fetches_unique _ _ _ hw hf] at hd
    cases hd
  · rintro ⟨w, hw, hd⟩
    rw [Laws.fetches_unique _ _ _ hw hf] at hd
    cases hd

theorem test_witness_BcdDigitsAreStored :
    ({ State.reset with I := 0xFFD } : State).I.toNat + 2 < 4096 ∧
    4096 ≤ ({ State.reset with I := 0xFFE } : State).I.toNat + 2 := by decide
theorem test_witness_RegistersAreStored_and_Loaded :
    ({ State.reset with I := 0xFF0 } : State).I.toNat + (0xF : Nibble).toNat < 4096 ∧
    4096 ≤ ({ State.reset with I := 0xFF1 } : State).I.toNat + (0xF : Nibble).toNat := by decide
theorem test_witness_StoreThenLoadRestoresRegisters :
    ({ State.reset with I := 0xFF0 } : State).I.toNat + (0xF : Nibble).toNat < 4096 ∧
    ∃ t, exec (.ldMemVx 0xF) { State.reset with I := 0xFF0 } = .next t ∧ t.I = 0xFF0 := ⟨by decide, _, rfl, by decide⟩
theorem test_witness_ResetLoadsTheImage : (List.replicate 0xE00 (0x12 : Byte)).length ≤ 0xE00 := by
  rw [List.length_replicate]
theorem test_witness_OversizedImageIsRejected : 0xE00 < (List.replicate 0xE01 (0x12 : Byte)).length := by
  rw [List.length_replicate]; decide

end Sys2Proof.Tests
end

namespace Sys2Proof.StateProofs

open Sys2Proof.Machine Sys2Proof.Safety Sys2Proof.Laws

/-! # The state of the machine (spec/10_state.md): what every step keeps, and who writes what

## The end of a cycle, field by field -/

section EndCycle

variable (u : State)

/-- The end of a cycle writes the timers, the interface and the latches, and nothing else (R139 to R141). -/
theorem endCycle_shape :
    ∃ DT' ST' io', u.endCycle = { u with DT := DT', ST := ST', io := io', op := 0, K := 0 } := by
  by_cases h : u.run = .running
  · exact ⟨_, _, _, endCycle_running u h⟩
  · exact ⟨u.DT, u.ST, u.io, endCycle_stopped u h⟩

@[simp] theorem endCycle_I : u.endCycle.I = u.I := by
  obtain ⟨_, _, _, h⟩ := endCycle_shape u; rw [h]

@[simp] theorem endCycle_pc : u.endCycle.pc = u.pc := by
  obtain ⟨_, _, _, h⟩ := endCycle_shape u; rw [h]

@[simp] theorem endCycle_sp : u.endCycle.sp = u.sp := by
  obtain ⟨_, _, _, h⟩ := endCycle_shape u; rw [h]

@[simp] theorem endCycle_M : u.endCycle.M = u.M := by
  obtain ⟨_, _, _, h⟩ := endCycle_shape u; rw [h]

@[simp] theorem endCycle_progSize : u.endCycle.progSize = u.progSize := by
  obtain ⟨_, _, _, h⟩ := endCycle_shape u; rw [h]

@[simp] theorem endCycle_getV (z : Nibble) : u.endCycle.getV z = u.getV z := by
  obtain ⟨_, _, _, h⟩ := endCycle_shape u; rw [h]; rfl

@[simp] theorem endCycle_stackEntry (k : Nat) : u.endCycle.stackEntry k = u.stackEntry k := by
  obtain ⟨_, _, _, h⟩ := endCycle_shape u; rw [h]; rfl

end EndCycle

/-! ## The machine's invariant -/

section MachineInvariant

/-- A Running machine that meets the invariant has no fault recorded (R42). -/
theorem inv_running_noFault {s : State} (hi : Inv s) (hr : s.run = .running) :
    s.faultCause = 0 ∧ s.faultPc = 0 ∧ s.faultOp = 0 := by
  have hne : s.run ≠ .faulted := by simp [hr]
  exact ⟨not_not.mp fun h => hne (hi.faulted.mpr h), hi.noFault hne⟩

/-- A machine that is not Faulted meets the invariant when nothing is recorded of a fault or of the cycle. -/
theorem inv_of_noFault {s : State} (hm : s.M.wf = true) (hsp : s.sp.toNat ≤ 16) (hr : s.run ≠ .faulted)
    (hf : s.faultCause = 0 ∧ s.faultPc = 0 ∧ s.faultOp = 0) (hl : s.op = 0 ∧ s.K = 0) : Inv s where
  memory := hm
  stackPointer := hsp
  faulted := by simp [hr, hf.1]
  cause := by simp [hf.1]
  noFault _ := hf.2
  latches := hl

/-- Every cause has a code from 1 to 5 (R313). -/
theorem cause_code_range (c : Cause) : c.code ≠ 0 ∧ c.code.toNat ≤ 5 := by cases c <;> decide

/-- Taking a fault and ending the cycle meets the invariant (R316). -/
theorem inv_takeFault {s : State} (hm : s.M.wf = true) (hsp : s.sp.toNat ≤ 16) (c : Cause) (pci op : Word) :
    Inv (s.takeFault c pci op).clearLatches where
  memory := hm
  stackPointer := hsp
  faulted := ⟨fun _ => (cause_code_range c).1, fun _ => rfl⟩
  cause := (cause_code_range c).2
  noFault h := absurd rfl h
  latches := ⟨rfl, rfl⟩

/-- The end of an executed cycle meets the invariant. -/
theorem inv_endCycle {u : State} (hr : u.run = .running) (hm : u.M.wf = true) (hsp : u.sp.toNat ≤ 16)
    (hf : u.faultCause = 0 ∧ u.faultPc = 0 ∧ u.faultOp = 0) : Inv u.endCycle := by
  rw [endCycle_running u hr]
  exact inv_of_noFault hm hsp (by simp [hr]) hf ⟨rfl, rfl⟩

/-- No instruction takes memory out of its canonical form: a store's range was checked (R74). -/
theorem writes_wf {i : Instr} {s t : State} (hw : Writes i s t) (hm : s.M.wf = true) : t.M.wf = true := by
  obtain e | ⟨x, -, hr, e⟩ | ⟨x, -, hr, e⟩ := hw.memory <;> rw [e]
  · exact hm
  · exact wf_writeAll _ _ _ hm hr
  · exact wf_writeAll _ _ _ hm (by rw [regsTo_length]; exact hr)

/-- No instruction takes sp out of its legal values (R35). -/
theorem writes_sp_legal {i : Instr} {s t : State} (hw : Writes i s t) (hsp : s.sp.toNat ≤ 16) : t.sp.toNat ≤ 16 := by
  obtain ⟨e, -⟩ | ⟨_, -, hlt, e, -⟩ | ⟨-, -, e, -⟩ := hw.stack <;> rw [e] <;> omega

end MachineInvariant

/-- Settles O16: along the cases of a step, an executed instruction keeps memory and sp by what it can write, and the
fault registers by leaving control alone. -/
theorem stepKeepsMachineInvariant : Obligations.StepKeepsMachineInvariant := by
  intro s t hi hs
  obtain ⟨hm, hsp⟩ : s.M.wf = true ∧ s.sp.toNat ≤ 16 := ⟨hi.memory, hi.stackPointer⟩
  cases step_next s t hs with
  | idle h => exact hi
  | halts h hend =>
    have hf := inv_running_noFault hi h
    exact inv_of_noFault hm hsp (by simp) hf hi.latches
  | fetchFault h hend hpc => exact inv_takeFault (s := s.sampleKeys) hm hsp _ _ _
  | unimpl w e h hd =>
    have hf := inv_running_noFault hi h.1
    exact inv_endCycle h.1 hm hsp hf
  | raised w i c h hd hr => exact inv_takeFault (s := handlerState s w) hm hsp _ _ _
  | done w i u h hd hx hr hq hno =>
    have hw := exec_writes i _ u hx
    have hf := inv_running_noFault hi h.1
    obtain ⟨⟨-, -, hcause, hfpc, hfop⟩, -⟩ := hq
    refine inv_endCycle hr (writes_wf hw hm) (writes_sp_legal hw hsp) ?_
    rw [hcause, hfpc, hfop]
    exact hf

/-! ## The range of the program counter and of the return addresses -/

section FlowRange

/-- Every live return address is at most 0x1000: the last clause of `FlowInv`. -/
def LiveReturnsLow (s : State) : Prop :=
  ∀ k v, 1 ≤ k → k ≤ s.sp.toNat → s.stackEntry k = some v → v.toNat ≤ 0x1000

/-- The range invariant speaks of sp, pc and the stack entries only. -/
theorem flowInv_congr {s t : State} (hi : FlowInv s) (hsp : t.sp = s.sp) (hpc : t.pc = s.pc)
    (hS : ∀ k, t.stackEntry k = s.stackEntry k) : FlowInv t where
  stackPointer := hsp ▸ hi.stackPointer
  pc := hpc ▸ hi.pc
  returns k v h1 h2 hv := hi.returns k v h1 (hsp ▸ h2) (hS k ▸ hv)

/-- A word lies below 0x1000 where it is fetched, so that the pc advance does not wrap and ends at 0x1000 at most (R133,
R134). -/
theorem fetches_pc_range {s : State} {w : Word} (h : Fetches s w) :
    2 ≤ (handlerState s w).pc.toNat ∧ (handlerState s w).pc.toNat ≤ 0x1000 := by
  obtain ⟨-, -, hlt, -⟩ := h
  have e : (handlerState s w).pc.toNat = s.pc.toNat + 2 := by
    show (s.pc + 2).toNat = _
    rw [BitVec.toNat_add]
    simp
    omega
  omega

/-- Advancing pc after a fetch keeps the range. -/
theorem flowInv_handlerState {s : State} {w : Word} (h : Fetches s w) (hi : FlowInv s) :
    FlowInv (handlerState s w) where
  stackPointer := hi.stackPointer
  pc := (fetches_pc_range h).2.trans (by decide)
  returns := hi.returns

/-- JP V0 goes to 0x10FE at most, with no wrap (R168). -/
theorem indexed_target_le (nnn : Addr12) (v : Byte) : (nnn.setWidth 16 + v.setWidth 16 : Word).toNat ≤ 0x10FE := by
  simp only [BitVec.toNat_add, BitVec.toNat_setWidth]
  omega

/-- An instruction leaves pc at or below 0x10FE (R164, R168), when its handler saw pc between 2 and 0x1000 and the live
return addresses are at most 0x1000. -/
theorem pcAfter_le {s : State} {i : Instr} {v : Word} (hv : PcAfter s i v)
    (hpc : 2 ≤ s.pc.toNat ∧ s.pc.toNat ≤ 0x1000) (hret : LiveReturnsLow s) : v.toNat ≤ 0x10FE := by
  cases hv with
  | stays => omega
  | skips => rw [BitVec.toNat_add]; simp; omega
  | rewinds => rw [BitVec.toNat_sub]; simp; omega
  | jumps _ nnn => rw [BitVec.toNat_setWidth]; omega
  | indexed nnn => exact indexed_target_le nnn _
  | returns v hsp hentry => exact (hret _ v hsp.1 (le_refl _) hentry).trans (by decide)

/-- The live return addresses stay at most 0x1000: a CALL adds the pc its handler sees, a RET only takes one away
(R161, R162). -/
theorem writes_returns {i : Instr} {s t : State} (hw : Writes i s t) (hpc : s.pc.toNat ≤ 0x1000)
    (hret : LiveReturnsLow s) : LiveReturnsLow t := by
  intro k v h1 h2 hv
  obtain ⟨esp, eS⟩ | ⟨_, -, -, esp, eS⟩ | ⟨-, -, esp, eS⟩ := hw.stack <;> rw [esp] at h2 <;> rw [eS] at hv
  · exact hret k v h1 h2 hv
  · split at hv
    · cases hv; exact hpc
    · exact hret k v h1 (by omega) hv
  · exact hret k v h1 (by omega) hv

/-- A machine that fetched a word and executes an instruction keeps the range. -/
theorem flowInv_exec {s t : State} {w : Word} {i : Instr} (h : Fetches s w) (hi : FlowInv s)
    (hx : exec i (handlerState s w) = .next t) : FlowInv t where
  stackPointer := writes_sp_legal (exec_writes i _ t hx) hi.stackPointer
  pc := pcAfter_le (exec_pc i _ t hx) (fetches_pc_range h) hi.returns
  returns := writes_returns (exec_writes i _ t hx) (fetches_pc_range h).2 hi.returns

end FlowRange

/-- Settles O18: a step leaves pc and the stack alone, or executes an instruction, which keeps the range by where it can
leave pc and what it can push. -/
theorem stepKeepsFlowRange : Obligations.StepKeepsFlowRange := by
  intro s t hi hs
  have endCycle {u : State} (hu : FlowInv u) : FlowInv u.endCycle :=
    flowInv_congr hu (endCycle_sp u) (endCycle_pc u) (endCycle_stackEntry u)
  cases step_next s t hs with
  | idle h => exact hi
  | halts h hend => exact flowInv_congr hi rfl rfl fun _ => rfl
  | fetchFault h hend hpc => exact flowInv_congr hi rfl rfl fun _ => rfl
  | unimpl w e h hd => exact endCycle (flowInv_congr (flowInv_handlerState h hi) rfl rfl fun _ => rfl)
  | raised w i c h hd hr => exact flowInv_congr hi rfl (pcI_handlerState s w) fun _ => rfl
  | done w i u h hd hx hr hq hno => exact endCycle (flowInv_exec h hi hx)

/-! ## Every step answers -/

/-- With a legal stack pointer every instruction answers a state: only a missing stack entry stops the model (R35). -/
theorem exec_answers {s : State} (i : Instr) (hsp : s.sp.toNat ≤ 16) : ∃ t, exec i s = .next t := by
  have he := exec_cases i s
  generalize exec i s = r at he ⊢
  cases he with
  | raised c h => exact ⟨_, rfl⟩
  | done t h hno => exact ⟨t, rfl⟩
  | stopped h hi => omega

/-- Settles O12, along the cases of a step: a word that is executed decodes to an instruction that answers, or is
unimplemented. -/
theorem noStepStops : Obligations.NoStepStops := by
  intro s hsp
  have hA := step_cases s
  generalize step s = r at hA ⊢
  cases hA with
  | idle h => exact ⟨s, rfl⟩
  | halts h hend => exact ⟨_, rfl⟩
  | fetchFault h hend hpc => exact ⟨_, rfl⟩
  | executes w h =>
    obtain ⟨i, -, e⟩ | ⟨_, -, e⟩ := executeWord_cases w (handlerState s w) <;> rw [e]
    · obtain ⟨t, ht⟩ := exec_answers (s := handlerState s w) i hsp
      exact ⟨_, by rw [ht, finish]⟩
    · exact ⟨_, rfl⟩

/-! ## PROG_SIZE -/

section ProgramSize

variable (n : Fin (Config.progMax + 1))

/-- No word's execution reads PROG_SIZE. -/
theorem executeWord_withProgSize (w : Word) (s : State) :
    executeWord w (withProgSize n s) = answerWithProgSize n (executeWord w s) := by
  cases h : decodeWord w with
  | ok i => rw [executeWord_ok w i _ h, executeWord_ok w i _ h, exec_withProgSize]
  | error e => rw [executeWord_error w e _ h, executeWord_error w e _ h]; rfl

/-- Nor does the end of a cycle, on any answer. -/
theorem finish_withProgSize (r : Result) : finish (answerWithProgSize n r) = answerWithProgSize n (finish r) := by
  cases r with
  | next t => exact congrArg Host.Outcome.next (endCycle_withProgSize n t)
  | fault f => rfl
  | refused f => rfl

/-- Below the end of the other image too, the same word is fetched. -/
theorem fetches_withProgSize {s : State} {w : Word} (h : Fetches s w) (hn : s.pc.toNat < 0x200 + n.val) :
    Fetches (withProgSize n s) w := by
  obtain ⟨hr, -, hpc, hw⟩ := h
  exact ⟨hr, hn, hpc, hw⟩

/-- Below the end of both images the halting test fails with either PROG_SIZE, and nothing else reads it (R40, R131). -/
theorem step_withProgSize {s : State} (hr : s.run = .running) (hs : s.pc.toNat < 0x200 + s.progSize.val)
    (hn : s.pc.toNat < 0x200 + n.val) : step (withProgSize n s) = answerWithProgSize n (step s) := by
  by_cases hpc : s.pc.toNat + 1 < 4096
  · obtain ⟨w, hw⟩ : ∃ w, Fetches s w := ⟨_, hr, hs, hpc, rfl⟩
    calc step (withProgSize n s)
        = finish (executeWord w (withProgSize n (handlerState s w))) := step_executes _ w (fetches_withProgSize n hw hn)
      _ = answerWithProgSize n (finish (executeWord w (handlerState s w))) := by
          rw [executeWord_withProgSize, finish_withProgSize]
      _ = answerWithProgSize n (step s) := by rw [step_executes s w hw]
  · rw [step_fetchFault s hr hs (by omega), step_fetchFault (withProgSize n s) hr hn (Nat.not_lt.mp hpc)]
    rfl

end ProgramSize

/-- Settles O20: no case of a step writes PROG_SIZE, and below both images' ends the step commutes with changing it. -/
theorem programSizeIsImmutable : Obligations.ProgramSizeIsImmutable := by
  constructor
  · intro s t hs
    cases step_next s t hs with
    | done w i u h hd hx hr hq hno => rw [endCycle_progSize]; exact hq.1.1
    | unimpl w e h hd => exact endCycle_progSize _
    | idle | halts | fetchFault | raised => rfl
  · intro s t n hr hs hn ht
    rw [step_withProgSize n hr hs hn, ht]
    rfl

/-! ## Who writes what -/

/-- A step that executes no instruction changes no register, not I, no memory and no stack entry; so any change is the
doing of the instruction decoded, on the state its handler sees. -/
theorem step_frame_or_executes {s t : State} (hs : step s = .next t) :
    (SameRegs s t ∧ t.I = s.I ∧ SameMemory s t ∧ SameStack s t) ∨
    ∃ w i u, Decodes s i ∧ exec i (handlerState s w) = .next u ∧ t = u.endCycle := by
  cases step_next s t hs with
  | idle | halts | fetchFault | raised =>
    exact .inl ⟨fun _ => rfl, rfl, fun _ => rfl, rfl, fun _ => rfl⟩
  | unimpl w e h hd =>
    refine .inl ⟨fun z => endCycle_getV _ z, endCycle_I _, fun a => ?_, endCycle_sp _, fun k => endCycle_stackEntry _ k⟩
    rw [endCycle_M]
    rfl
  | done w i u h hd hx hr hq hno => exact .inr ⟨w, i, u, ⟨w, h, hd⟩, hx, rfl⟩

/-- Settles O21, by what an executed instruction can write of the stack. -/
theorem onlyCallAndReturnTouchTheStack : Obligations.OnlyCallAndReturnTouchTheStack := by
  intro s t hs
  obtain ⟨-, -, -, hsp, hS⟩ | ⟨w, i, u, hd, hx, rfl⟩ := step_frame_or_executes hs
  · exact ⟨fun h => absurd hsp h, fun ⟨k, hk⟩ => absurd (hS k) hk⟩
  · simp only [endCycle_sp, endCycle_stackEntry]
    obtain ⟨esp, eS⟩ | ⟨nnn, rfl, -⟩ | ⟨rfl, -, -, eS⟩ := (exec_writes i _ u hx).stack
    · exact ⟨fun h => absurd esp h, fun ⟨k, hk⟩ => absurd (eS k) hk⟩
    · exact ⟨fun _ => .inl ⟨nnn, hd⟩, fun _ => ⟨nnn, hd⟩⟩
    · exact ⟨fun _ => .inr hd, fun ⟨k, hk⟩ => absurd (eS k) hk⟩

/-- Settles O22, by what an executed instruction can write of I. -/
theorem onlyIndexInstructionsWriteI : Obligations.OnlyIndexInstructionsWriteI := by
  intro s t hs hne
  obtain ⟨-, hI, -⟩ | ⟨w, i, u, hd, hx, rfl⟩ := step_frame_or_executes hs
  · exact absurd hI hne
  · rw [endCycle_I] at hne
    obtain e | ⟨nnn, rfl⟩ | ⟨x, rfl | rfl⟩ := (exec_writes i _ u hx).index
    · exact absurd e hne
    · exact .inl ⟨nnn, hd⟩
    · exact .inr ⟨x, .inl hd⟩
    · exact .inr ⟨x, .inr hd⟩

/-- Settles O24, by which instructions can write VF: six as a flag, the others where it is their destination. -/
theorem onlyFlagWritersChangeVF : Obligations.OnlyFlagWritersChangeVF := by
  intro s t hs hne
  obtain ⟨hV, -⟩ | ⟨w, i, u, hd, hx, rfl⟩ := step_frame_or_executes hs
  · exact absurd (hV VF) hne
  · rw [endCycle_getV] at hne
    have hw : WritesVF i := (exec_flag i _ u hx).resolve_left hne
    cases i with
    | addReg x y => exact .inl ⟨x, y, .inl hd⟩
    | sub x y => exact .inl ⟨x, y, .inr (.inl hd)⟩
    | shr x y => exact .inl ⟨x, y, .inr (.inr (.inl hd))⟩
    | subn x y => exact .inl ⟨x, y, .inr (.inr (.inr (.inl hd)))⟩
    | shl x y => exact .inl ⟨x, y, .inr (.inr (.inr (.inr (.inl hd))))⟩
    | drw x y n => exact .inl ⟨x, y, .inr (.inr (.inr (.inr (.inr ⟨n, hd⟩))))⟩
    | ldImm x nn => obtain rfl := hw; exact .inr (.inl ⟨nn, .inl hd⟩)
    | addImm x nn => obtain rfl := hw; exact .inr (.inl ⟨nn, .inr (.inl hd)⟩)
    | rnd x nn => obtain rfl := hw; exact .inr (.inl ⟨nn, .inr (.inr hd)⟩)
    | ldReg x y => obtain rfl := hw; exact .inr (.inr (.inl ⟨y, .inl hd⟩))
    | orReg x y => obtain rfl := hw; exact .inr (.inr (.inl ⟨y, .inr (.inl hd)⟩))
    | andReg x y => obtain rfl := hw; exact .inr (.inr (.inl ⟨y, .inr (.inr (.inl hd))⟩))
    | xorReg x y => obtain rfl := hw; exact .inr (.inr (.inl ⟨y, .inr (.inr (.inr hd))⟩))
    | ldVxDT x => obtain rfl := hw; exact .inr (.inr (.inr (.inl hd)))
    | ldVxK x => obtain rfl := hw; exact .inr (.inr (.inr (.inr (.inl hd))))
    | ldVxMem x => obtain rfl := hw; exact .inr (.inr (.inr (.inr (.inr hd))))
    | _ => exact hw.elim

/-! ## The random byte (spec/42_alu.md R210) -/

/-- One draw takes the head of the feed, or a free byte with its counter advanced (R63, log entry 5). -/
theorem rnd_draw (io : Interface) :
    (∀ b rest, io.rndFeed = b :: rest → io.nextRnd = b ∧ io.afterRnd = { io with rndFeed := rest }) ∧
    (io.rndFeed = [] →
      io.nextRnd = Config.freeRnd io.rndDraws ∧ io.afterRnd = { io with rndDraws := io.rndDraws + 1 }) := by
  constructor
  · intro b rest h
    simp [Interface.nextRnd, Interface.afterRnd, h]
  · intro h
    simp [Interface.nextRnd, Interface.afterRnd, h]

/-- Settles O37: the meaning of RND is one draw and one register write. -/
theorem randomByteIsMasked : Obligations.RandomByteIsMasked := by
  intro s x nn
  refine ⟨or_xnn 0xC x nn, s.io.nextRnd, _, rfl, getV_setV_same _ x _, (rnd_draw s.io).1, (rnd_draw s.io).2, ?_, rfl,
    rfl, fun _ => rfl, ⟨rfl, fun _ => rfl⟩, ⟨rfl, rfl⟩, ⟨rfl, rfl, rfl, rfl, rfl⟩, rfl, rfl⟩
  intro z hz
  exact getV_setV_ne (s.setIo s.io.afterRnd) x z _ hz

/-! ## The display (spec/43_display.md) -/

/-- A retained value is the answer (R64). -/
theorem pixelAnswer_of_kept {io : Interface} {x y : Nat} {b : Bool} (h : io.kept x y = some b) :
    io.pixelAnswer x y = b := by
  rw [Interface.pixelAnswer, h]

/-- Settles O41: what is kept of a pixel on the surface is what its newest setPixel or clear wrote. -/
theorem displayKeepsWrittenPixels : Obligations.DisplayKeepsWrittenPixels := by
  intro s w h x y on hs hx hy
  have hkept (io : Interface) (hio : io.surface = some (w, h)) : io.kept x y = lastPixel x y io.events :=
    kept_surface io w h hio (x, y) ⟨hx, hy⟩
  refine ⟨pixelAnswer_of_kept ?_, pixelAnswer_of_kept ?_, fun x' y' on' hne => ?_⟩
  · rw [hkept (s.setPixel x y on).io hs]
    simp [State.setPixel, lastPixel]
  · exact hkept (s.emit .clear).io hs
  · have hne : ¬ (x = x' ∧ y = y') := fun ⟨ex, ey⟩ => hne (by rw [ex, ey])
    rw [hkept (s.setPixel x' y' on').io hs, hkept s.io hs]
    simp [State.setPixel, lastPixel, hne]

/-! ### The pixels of a sprite -/

/-- A column is named exactly when it is one of the eight and its bit is set (R233). -/
theorem mem_rowColumns (row : Byte) (j : Nat) : j ∈ rowColumns row ↔ j < 8 ∧ row.getLsbD (7 - j) = true := by
  simp [rowColumns]

/-- Columns are named left to right, so none twice. -/
theorem rowColumns_pairwise (row : Byte) : (rowColumns row).Pairwise (· < ·) :=
  List.pairwise_lt_range.filter _

/-- The pixels of a sprite are those of its rows' set bits (R232, R233). -/
theorem mem_spritePixels (m : Memory) (base n cx cy px py : Nat) :
    (px, py) ∈ spritePixels m base n cx cy ↔
      ∃ i j, i < n ∧ j < 8 ∧ (m.read (base + i)).getLsbD (7 - j) = true ∧ px = cx + j ∧ py = cy + i := by
  simp only [spritePixels, List.mem_flatMap, List.mem_range, List.mem_map, mem_rowColumns, Prod.mk.injEq]
  constructor
  · rintro ⟨i, hi, j, ⟨hj, hbit⟩, ex, ey⟩
    exact ⟨i, j, hi, hj, hbit, ex.symm, ey.symm⟩
  · rintro ⟨i, j, hi, hj, hbit, ex, ey⟩
    exact ⟨i, hi, j, ⟨hj, hbit⟩, ex.symm, ey.symm⟩

/-- Pixels come row by row, and in a row from left to right. -/
theorem spritePixels_pairwise (m : Memory) (base n cx cy : Nat) :
    (spritePixels m base n cx cy).Pairwise (fun p q => p.2 < q.2 ∨ (p.2 = q.2 ∧ p.1 < q.1)) := by
  rw [spritePixels, List.pairwise_flatMap]
  constructor
  · intro i _
    rw [List.pairwise_map]
    exact (rowColumns_pairwise _).imp fun h => .inr ⟨rfl, Nat.add_lt_add_left h cx⟩
  · refine List.pairwise_lt_range.imp fun {i i'} hlt p hp q hq => .inl ?_
    obtain ⟨_, _, rfl⟩ := List.mem_map.mp hp
    obtain ⟨_, _, rfl⟩ := List.mem_map.mp hq
    exact Nat.add_lt_add_left hlt cy

/-- No pixel is named twice. -/
theorem spritePixels_nodup (m : Memory) (base n cx cy : Nat) : (spritePixels m base n cx cy).Nodup := by
  refine (spritePixels_pairwise m base n cx cy).imp fun {p q} h e => ?_
  subst e
  omega

/-- The coordinates of a sprite's pixels are at most (255 + 7, 255 + 14). -/
theorem spritePixels_bound (m : Memory) (base : Nat) (n : Nibble) (vx vy : Byte) :
    ∀ p ∈ spritePixels m base n.toNat vx.toNat vy.toNat, p.1 ≤ 262 ∧ p.2 ≤ 269 := by
  rintro ⟨px, py⟩ hp
  obtain ⟨i, j, hi, hj, -, rfl, rfl⟩ := (mem_spritePixels _ _ _ _ _ _ _).mp hp
  constructor <;> dsimp only <;> omega

/-! ### A draw -/

section Draw

/-- The pixels DRW draws, from the state its handler sees. -/
def drawnPixels (s : State) (x y n : Nibble) : List (Nat × Nat) :=
  spritePixels s.M s.I.toNat n.toNat (s.getV x).toNat (s.getV y).toNat

/-- The state DRW leaves with every row in memory (`execDrw_inRange`). -/
def drawn (s : State) (x y n : Nibble) : State :=
  (drawPixels (drawnPixels s x y n) (s.setV VF 0)).emit .present

/-- DRW with every row in memory (R232). -/
theorem execDrw_inRange {s : State} {x y n : Nibble} (h : ∀ k, k < n.toNat → s.I.toNat + k < 4096) :
    exec (.drw x y n) s = .next (drawn s x y n) := by
  obtain ⟨-, e⟩ | ⟨⟨k, hk, hle⟩, -⟩ := checkRange_cases s.base n.toNat s fun s => drawn s x y n
  · exact e
  · exact absurd (h k hk) (Nat.not_lt.mpr hle)

variable (s : State) (x y n : Nibble)

/-- A draw changes the register file and the interface, and nothing else. -/
theorem drawn_shape : ∃ V' io', drawn s x y n = { s with V := V', io := io' } := by
  obtain ⟨V', io', h⟩ := drawPixels_shape (drawnPixels s x y n) (s.setV VF 0)
  exact ⟨V', _, by rw [drawn, h]; rfl⟩

/-- A draw's answers are the interface's, and of the registers only VF is written: 1 exactly when one was true. -/
theorem drawn_answers :
    ∃ answers io, DisplayAnswers (drawnPixels s x y n) answers s.io io ∧
      (drawn s x y n).io = { io with events := .present :: io.events } ∧
      (drawn s x y n).getV VF = (if true ∈ answers then 1 else 0) ∧ SameRegsBut (· = VF) s (drawn s x y n) := by
  obtain ⟨answers, h, hV⟩ := drawPixels_answers (drawnPixels s x y n) (s.setV VF 0)
  refine ⟨answers, _, h, rfl, ?_, fun z hz => ?_⟩
  · rw [drawn, emit_getV, hV]
    simp
  · rw [drawn, emit_getV, hV, getV_setV_ne _ _ _ _ hz]
    simp [hz]

/-- A draw leaves the size of the surface. -/
theorem drawn_surface : (drawn s x y n).io.surface = s.io.surface := by
  obtain ⟨_, -, -, h, -⟩ := drawPixels_spec (drawnPixels s x y n) (s.setV VF 0)
  exact h

/-- A draw with its coordinates not in VF leaves all that names its pixels. -/
theorem drawnPixels_drawn (hx : x ≠ VF) (hy : y ≠ VF) : drawnPixels (drawn s x y n) x y n = drawnPixels s x y n := by
  obtain ⟨V', io', hshape⟩ := drawn_shape s x y n
  obtain ⟨_, _, -, -, -, hregs⟩ := drawn_answers s x y n
  have hM : (drawn s x y n).M = s.M := by rw [hshape]
  have hI : (drawn s x y n).I = s.I := by rw [hshape]
  simp only [drawnPixels, hM, hI, hregs x hx, hregs y hy]

/-- A draw on a surface of known size: for each pixel an answer, which is what was kept of it if something was; the
opposite kept after; and VF telling whether an answer was true (R64, R232). -/
theorem drawn_kept {w h : Nat} (hs : s.io.surface = some (w, h))
    (hp : ∀ p ∈ drawnPixels s x y n, p.1 < w ∧ p.2 < h) :
    ∃ a : Nat × Nat → Bool,
      (∀ p ∈ drawnPixels s x y n, (drawn s x y n).io.kept p.1 p.2 = some (!a p)) ∧
      (∀ p ∈ drawnPixels s x y n, ∀ b, s.io.kept p.1 p.2 = some b → a p = b) ∧
      ((drawn s x y n).getV VF = 1 ↔ ∃ p ∈ drawnPixels s x y n, a p = true) := by
  obtain ⟨a, hkept, -, hans, hVF⟩ :=
    drawPixels_kept (drawnPixels s x y n) (s.setV VF 0) w h hs hp (spritePixels_nodup _ _ _ _ _)
  refine ⟨a, hkept, hans, ?_⟩
  rw [drawn, emit_getV, hVF, getV_setV_same]
  simp

end Draw

/-- A fault raised is a fault taken (R316). -/
theorem takesFault_raise (s : State) (c : Cause) : TakesFault (.next (s.raise c)) s c :=
  ⟨_, rfl, rfl, rfl, rfl, rfl, rfl, fun _ => rfl, rfl, fun _ => rfl, ⟨rfl, fun _ => rfl⟩, ⟨rfl, rfl⟩, rfl, ⟨rfl, rfl⟩,
    rfl⟩

/-- Settles O39: the draw is the display's answers pixel by pixel, whose frame and closed form are known; the range check
comes before it. -/
theorem drawTogglesSpritePixels : Obligations.DrawTogglesSpritePixels := by
  intro s x y n
  refine ⟨or_xyn 0xD x y n, fun hrange => ?_, fun hrange => ?_⟩
  · obtain ⟨V', io', hshape⟩ := drawn_shape s x y n
    obtain ⟨answers, io, hans, hio, hVF, hregs⟩ := drawn_answers s x y n
    obtain ⟨hlen, hevents, hframe⟩ := displayAnswers_frame _ _ _ _ hans
    have hunknown := displayAnswers_unknown _ _ _ _ hans
    refine ⟨drawn s x y n, answers, execDrw_inRange hrange, hlen, spritePixels_bound _ _ _ _ _, ?_,
      ⟨io, hans, hio⟩, ?_, fun hs => ?_, hVF, hregs, ?_⟩
    · rw [hio, hevents]
      simp [drawnPixels]
    · rw [hio, hframe]
    · rw [hio]
      exact hunknown hs
    · rw [hshape]
      exact ⟨rfl, rfl, fun _ => rfl, ⟨rfl, fun _ => rfl⟩, ⟨rfl, rfl⟩, ⟨rfl, rfl, rfl, rfl, rfl⟩, rfl, rfl⟩
  · rw [exec_raises (.drw x y n) s .memoryRange hrange]
    exact takesFault_raise s .memoryRange

/-- Settles O42: both draws name the same pixels, and the second is answered by what the first left. -/
theorem secondDrawUndoesTheFirst : Obligations.SecondDrawUndoesTheFirst := by
  intro s x y n w h hs hx hy hrange hp
  have hrange' : ∀ k, k < n.toNat → (drawn s x y n).I.toNat + k < 4096 := by
    obtain ⟨V', io', hshape⟩ := drawn_shape s x y n
    rw [hshape]
    exact hrange
  have hs' : (drawn s x y n).io.surface = some (w, h) := (drawn_surface s x y n).trans hs
  have hpix := drawnPixels_drawn s x y n hx hy
  obtain ⟨a, hkept, -, -⟩ := drawn_kept s x y n hs hp
  obtain ⟨a', hkept', hans, hVF⟩ := drawn_kept (drawn s x y n) x y n hs' (hpix ▸ hp)
  rw [hpix] at hkept' hans hVF
  have hopp : ∀ p ∈ drawnPixels s x y n, a' p = !a p := fun p hmem => hans p hmem _ (hkept p hmem)
  refine ⟨_, _, execDrw_inRange hrange, execDrw_inRange hrange', fun p hmem => ?_, ?_⟩
  · exact ⟨!a p, hkept p hmem, hopp p hmem ▸ hkept' p hmem⟩
  · rw [hVF]
    refine exists_congr fun p => and_congr_right fun hmem => ?_
    rw [hopp p hmem, hkept p hmem, Option.some_inj]

/-! ## The stack with sp out of range (log entry 10) -/

/-- Settles O30: above 16 neither the entry a CALL writes nor the one a RET reads exists, and neither faults. -/
theorem missingStackEntryStops : Obligations.MissingStackEntryStops := by
  intro s nnn hsp
  have h16 : s.sp ≠ 16 := by rintro e; rw [e] at hsp; exact absurd hsp (by decide)
  have h0 : s.sp ≠ 0 := by rintro e; rw [e] at hsp; exact absurd hsp (by decide)
  constructor
  · obtain ⟨hlt, -⟩ | ⟨-, e⟩ := push_cases s s.pc
    · omega
    · rw [exec, execCall, if_neg h16, e]
  · obtain ⟨hle, -⟩ | ⟨-, e⟩ := pop_cases s
    · omega
    · rw [exec, execRet, if_neg h0, e]

/-! ## Reset (spec/70_reset_and_hazards.md R340) -/

/-- A reset with an image that fits meets the machine's invariant. -/
theorem inv_resetTo (s : State) (p : Config.ResetParams) (prog : List Byte) (h : prog.length ≤ 0xE00) :
    Inv (s.resetTo p prog) := by
  rw [resetTo_fits s p prog (Nat.lt_succ_of_le h)]
  exact inv_of_noFault (wf_resetMemory p prog h) (Nat.zero_le _) (by simp) ⟨rfl, rfl, rfl⟩ ⟨rfl, rfl⟩

/-- It has pc at the entry point and no live return address. -/
theorem flowInv_resetTo (s : State) (p : Config.ResetParams) (prog : List Byte) (h : prog.length ≤ 0xE00) :
    FlowInv (s.resetTo p prog) := by
  rw [resetTo_fits s p prog (Nat.lt_succ_of_le h)]
  exact ⟨Nat.zero_le _, by simp, fun k v h1 h2 _ => absurd (h1.trans h2) (by simp)⟩

section ResetMemory

variable (p : Config.ResetParams) (prog : List Byte)

/-- Below the image, memory after a reset is MEM_FILL with the glyph table over it. -/
theorem read_resetMemory_outside {a : Nat} (h : a < 0x200 ∨ 0x200 + prog.length ≤ a) :
    (resetMemory p prog).read a = (Memory.writeAll (Memory.ofFun p.memFill) 0 p.font.toList).read a :=
  read_writeAll_outside prog _ 0x200 a h

/-- The glyph table is at 0x000 (R76). -/
theorem read_resetMemory_font {a : Nat} (h : a < 80) : (resetMemory p prog).read a = p.font[a] := by
  rw [read_resetMemory_outside p prog (.inl (by omega))]
  have hl : a < p.font.toList.length := by rwa [Vector.length_toList]
  rw [← Vector.getElem_toList hl, ← read_writeAll_inside p.font.toList (Memory.ofFun p.memFill) 0 a hl, Nat.zero_add]

/-- The image is at 0x200, byte for byte. -/
theorem read_resetMemory_image {a : Nat} (h : a < prog.length) : (resetMemory p prog).read (0x200 + a) = prog[a] :=
  read_writeAll_inside prog _ 0x200 a h

/-- The rest is MEM_FILL. -/
theorem read_resetMemory_fill {a : Nat} (ha : a < 4096) (h80 : 80 ≤ a) (h : a < 0x200 ∨ 0x200 + prog.length ≤ a) :
    (resetMemory p prog).read a = p.memFill a := by
  rw [read_resetMemory_outside p prog h, read_writeAll_outside _ _ _ _ (.inr (by simpa using h80)), read_ofFun _ _ ha]

end ResetMemory

/-- Settles O54: memory by its three regions, the rest by the reset's own fields, and both invariants. -/
theorem resetLoadsTheImage : Obligations.ResetLoadsTheImage := by
  intro s p prog hlen
  have hinv := inv_resetTo s p prog hlen
  have hflow := flowInv_resetTo s p prog hlen
  rw [resetTo_fits s p prog (Nat.lt_succ_of_le hlen)] at hinv hflow ⊢
  exact ⟨fun a h => read_resetMemory_font p prog h, fun a h => read_resetMemory_image p prog h,
    fun a ha h80 h => read_resetMemory_fill p prog ha h80 h, rfl, rfl, rfl, rfl, rfl, rfl, rfl, rfl, rfl, rfl, rfl, rfl,
    rfl, hinv, hflow⟩

/-- Settles O17: State.reset is a reset with the empty image. -/
theorem resetMeetsMachineInvariant : Obligations.ResetMeetsMachineInvariant := by
  have h := inv_resetTo State.reset chosenParams [] (Nat.zero_le _)
  rwa [reset_is_resetTo] at h

/-- Settles O19: State.reset is a reset with the empty image. -/
theorem resetMeetsFlowRange : Obligations.ResetMeetsFlowRange := by
  have h := flowInv_resetTo State.reset chosenParams [] (Nat.zero_le _)
  rwa [reset_is_resetTo] at h

end Sys2Proof.StateProofs

namespace Sys2Proof.MemoryProofs

open Sys2Proof.Machine Sys2Proof.Safety Sys2Proof.Laws Sys2Proof.StateProofs

/-! # Memory (spec/20_memory.md): the fetch, the stores and the loads

## The fetch -/

/-- Two bytes joined are the number they spell, high byte first (R71). -/
theorem toNat_append_bytes (hi lo : Byte) : (hi ++ lo : Word).toNat = 256 * hi.toNat + lo.toNat := by
  have hlo : lo.toNat < 2 ^ 8 := lo.isLt
  calc (hi ++ lo : Word).toNat = hi.toNat <<< 8 ||| lo.toNat := BitVec.toNat_append hi lo
    _ = hi.toNat <<< 8 + lo.toNat := (Nat.shiftLeft_add_eq_or_of_lt hlo _).symm
    _ = 256 * hi.toNat + lo.toNat := by rw [Nat.shiftLeft_eq, Nat.mul_comm]

/-- Below the end of the image only pc = 0xFFF is too high to fetch from, and only the longest image reaches past it
(R40, R133). -/
theorem fetch_fails_only_at_top {s : State} (hend : s.pc.toNat < 0x200 + s.progSize.val)
    (hpc : 4096 ≤ s.pc.toNat + 1) : s.pc.toNat = 0xFFF ∧ s.progSize.val = 0xE00 := by
  have hmax : s.progSize.val < 0xE00 + 1 := s.progSize.isLt
  omega

/-- Settles O10: the bound on PROG_SIZE bounds pc; the step is then `step_fetchFault`, or the fetch reads the
two bytes. -/
theorem fetchRangeOnlyAtTop : Obligations.FetchRangeOnlyAtTop := by
  intro s hr hend
  constructor
  · intro hpc
    obtain ⟨htop, hsize⟩ := fetch_fails_only_at_top hend hpc
    exact ⟨htop, hsize, _, step_fetchFault s hr hend hpc, rfl, rfl, rfl, rfl, rfl, fun _ => rfl, rfl, fun _ => rfl,
      ⟨rfl, fun _ => rfl⟩, ⟨rfl, rfl⟩, rfl, rfl⟩
  · intro hpc
    exact ⟨_, fetch_some s hpc, toNat_append_bytes _ _⟩

/-! ## Who writes memory -/

/-- A byte that a run of writes changed is one of the bytes written. -/
theorem writeAll_changed_range {m : Memory} {a b : Nat} {vs : List Byte}
    (h : (Memory.writeAll m a vs).read b ≠ m.read b) : a ≤ b ∧ b < a + vs.length := by
  by_contra hout
  exact h (read_writeAll_outside vs m a b (by omega))

/-- Settles O23, by what an executed instruction can write of memory: LD B three bytes, LD [I] one for each register. -/
theorem onlyStoresChangeMemory : Obligations.OnlyStoresChangeMemory := by
  intro s t a hs hne
  obtain ⟨-, -, hM, -⟩ | ⟨w, i, u, hd, hx, rfl⟩ := step_frame_or_executes hs
  · exact absurd (hM a) hne
  · rw [endCycle_M] at hne
    obtain e | ⟨x, rfl, -, e⟩ | ⟨x, rfl, -, e⟩ := (exec_writes i _ u hx).memory <;> rw [e] at hne
    · exact absurd rfl hne
    · obtain ⟨hle, hlt⟩ := writeAll_changed_range hne
      exact .inl ⟨x, hd, hle, Nat.le_of_lt_succ hlt⟩
    · obtain ⟨hle, hlt⟩ := writeAll_changed_range hne
      rw [regsTo_length] at hlt
      exact .inr ⟨x, hd, hle, Nat.le_of_lt_succ hlt⟩

/-! ## Storing and loading V[0] to V[x] -/

section Transfer

/-- With every address in memory the range check lets the effect through (R74). -/
theorem checkRange_inRange {base count : Nat} {s : State} (f : State → State)
    (h : ∀ k, k < count → base + k < 4096) : checkRange base count s f = .next (f s) :=
  if_pos ((rangeOk_iff base count).mpr h)

/-- The state LD [I], Vx leaves with I + x in memory (`exec_ldMemVx_inRange`). -/
def stored (s : State) (x : Nibble) : State := s.setM (Memory.writeAll s.M s.I.toNat (s.regsTo x))

/-- The state LD Vx, [I] leaves with I + x in memory (`exec_ldVxMem_inRange`). -/
def loaded (s : State) (x : Nibble) : State := s.setVsFrom 0 (Memory.readAll s.M s.I.toNat (x.toNat + 1))

variable {s : State} {x : Nibble}

/-- LD [I], Vx with I + x in memory (R284). -/
theorem exec_ldMemVx_inRange (h : s.I.toNat + x.toNat < 4096) : exec (.ldMemVx x) s = .next (stored s x) :=
  checkRange_inRange (stored · x) fun k hk => show s.I.toNat + k < 4096 by omega

/-- LD Vx, [I] with I + x in memory (R285). -/
theorem exec_ldVxMem_inRange (h : s.I.toNat + x.toNat < 4096) : exec (.ldVxMem x) s = .next (loaded s x) :=
  checkRange_inRange (loaded · x) fun k hk => show s.I.toNat + k < 4096 by omega

/-- A store does not change I (D27). -/
@[simp] theorem stored_I : (stored s x).I = s.I := rfl

/-- Register z is stored at I + z (R284). -/
theorem read_stored {z : Nibble} (h : z.toNat ≤ x.toNat) :
    (stored s x).M.read (s.I.toNat + z.toNat) = s.getV z := by
  have hlen : z.toNat < (s.regsTo x).length := by rw [regsTo_length]; omega
  calc (stored s x).M.read (s.I.toNat + z.toNat)
      = (s.regsTo x)[z.toNat] := read_writeAll_inside _ s.M s.I.toNat _ hlen
    _ = s.getV (BitVec.ofNat 4 z.toNat) := regsTo_getElem s x _ hlen
    _ = s.getV z := by rw [BitVec.ofNat_toNat, BitVec.setWidth_eq]

/-- Register z is loaded from I + z (R285). -/
theorem getV_loaded {z : Nibble} (h : z.toNat ≤ x.toNat) : (loaded s x).getV z = s.M.read (s.I.toNat + z.toNat) := by
  have hlen : z.toNat < (Memory.readAll s.M s.I.toNat (x.toNat + 1)).length := by rw [readAll_length]; omega
  have hfits : 0 + (Memory.readAll s.M s.I.toNat (x.toNat + 1)).length ≤ 16 := by
    rw [readAll_length]; have := x.isLt; omega
  rw [loaded, getV_setVsFrom _ _ _ _ hfits, if_pos (Nat.zero_le _), Nat.sub_zero, List.getElem?_eq_getElem hlen,
    Option.getD_some, readAll_getElem]

end Transfer

/-- Settles O52: the load reads, for each register, the address the store wrote it to. -/
theorem storeThenLoadRestoresRegisters : Obligations.StoreThenLoadRestoresRegisters := by
  intro s x hrange
  refine ⟨stored s x, exec_ldMemVx_inRange hrange, fun t' hI hbytes => ?_⟩
  rw [stored_I] at hI
  refine ⟨loaded t' x, exec_ldVxMem_inRange (by rwa [hI]), fun z hz => ?_⟩
  calc (loaded t' x).getV z
      = t'.M.read (s.I.toNat + z.toNat) := by rw [getV_loaded hz, hI]
    _ = (stored s x).M.read (s.I.toNat + z.toNat) := hbytes z.toNat hz
    _ = s.getV z := read_stored hz

end Sys2Proof.MemoryProofs

namespace Sys2Proof.EncodingProofs

open Sys2Proof.Laws

/-! # Encoding (spec/30_encoding.md): the decoder against the encoder, the rows of the opcode map and the unlisted words

## Decoding an encoded instruction -/

/-- The decoder gives back the instruction of an encoded word, along the shapes of word (R101): each constructor's word
has the fields the dispatch reads and the operands it hands over. -/
theorem decodeWord_encodeWord (i : Instr) : decodeWord (encodeWord i) = .ok i := by
  cases i with
  | cls | ret => rfl
  | jp | call | ldI | jpV0 => simp only [encodeWord, decodeWord, hiOf_nnn, nnnOf_nnn]
  | seImm | sneImm | ldImm | addImm | rnd => simp only [encodeWord, decodeWord, hiOf_xnn, xOf_xnn, nnOf_xnn]
  | seReg | sneReg | drw => simp only [encodeWord, decodeWord, hiOf_xyn, xOf_xyn, yOf_xyn, nOf_xyn]
  | ldReg | orReg | andReg | xorReg | addReg | sub | shr | subn | shl =>
    simp only [encodeWord, decodeWord, decode8, hiOf_xyn, xOf_xyn, yOf_xyn, nOf_xyn]
  | skp | sknp => simp only [encodeWord, decodeWord, decodeE, hiOf_xnn, xOf_xnn, nnOf_xnn]
  | ldVxDT | ldVxK | ldDTVx | ldSTVx | addI | ldF | ldB | ldMemVx | ldVxMem =>
    simp only [encodeWord, decodeWord, decodeF, hiOf_xnn, xOf_xnn, nnOf_xnn]

/-- The decoder on the bytes of a word is the decoder on the word, and hands back what follows (R71, R100). -/
theorem decode_bytesOfWord_append (w : Word) (rest : List Byte) :
    decode (bytesOfWord w ++ rest) = (decodeWord w).map (·, rest) := by
  rw [bytesOfWord, List.cons_append, List.cons_append, List.nil_append, decode, wordOfBytes_bytesOfWord]
  cases decodeWord w <;> rfl

/-- Settles O2: on bytes as on the word. -/
theorem decodeInvertsEncode : Obligations.DecodeInvertsEncode := by
  intro i rest
  rw [encode, decode_bytesOfWord_append, decodeWord_encodeWord]
  rfl

/-! ## What the decoder answers -/

section Answers

variable {w : Word} {h : Nibble}

/-- A word of shape `h ‖ nnn` from its known fields (R101). -/
theorem word_of_nnn {nnn : Addr12} (hh : hiOf w = h) (hn : nnnOf w = nnn) : (h ++ nnn : Word) = w := by
  rw [← hh, ← hn, word_nnn]

/-- A word of shape `h ‖ x ‖ nn` from its known fields (R101). -/
theorem word_of_xnn {nn : Byte} (hh : hiOf w = h) (hn : nnOf w = nn) : (h ++ xOf w ++ nn : Word) = w := by
  rw [← hh, ← hn, word_xnn]

/-- A word of shape `h ‖ x ‖ y ‖ n` from its known fields (R101). -/
theorem word_of_xyn {n : Nibble} (hh : hiOf w = h) (hn : nOf w = n) : (h ++ xOf w ++ yOf w ++ n : Word) = w := by
  rw [← hh, ← hn, word_xyn]

/-- The words that select no operation, family by family: those whose sub-key has no row (R105 to R108, R111). -/
def Unlisted (w : Word) : Prop :=
  (hiOf w = 0x0#4 ∧ nnnOf w ∉ [0x0E0#12, 0x0EE#12]) ∨
  (hiOf w = 0x8#4 ∧ nOf w ∉ [0x0#4, 0x1#4, 0x2#4, 0x3#4, 0x4#4, 0x5#4, 0x6#4, 0x7#4, 0xE#4]) ∨
  (hiOf w = 0xE#4 ∧ nnOf w ∉ [0x9E#8, 0xA1#8]) ∨
  (hiOf w = 0xF#4 ∧ nnOf w ∉ [0x07#8, 0x0A#8, 0x15#8, 0x18#8, 0x1E#8, 0x29#8, 0x33#8, 0x55#8, 0x65#8])

/-- What the decoder may answer for a word: an instruction that encodes to it, or a rejection where it is unlisted. -/
inductive Answers (w : Word) : Except Reject Instr → Prop where
  | ok (i : Instr) (he : encodeWord i = w) : Answers w (.ok i)
  | error (e : Reject) (hu : Unlisted w) : Answers w (.error e)

/-- Family 0x0: each listed `nnn` is the sub-key of the instruction it selects. -/
theorem answers_decode0 (hh : hiOf w = 0x0#4) : Answers w (decode0 w) := by
  unfold decode0
  split
  iterate 2 exact .ok _ (word_of_nnn hh ‹_›)
  exact .error _ (.inl ⟨hh, by simp_all⟩)

/-- Family 0x8: each listed `n` is the sub-key of the instruction it selects. -/
theorem answers_decode8 (hh : hiOf w = 0x8#4) : Answers w (decode8 w) := by
  unfold decode8
  split
  iterate 9 exact .ok _ (word_of_xyn hh ‹_›)
  exact .error _ (.inr (.inl ⟨hh, by simp_all⟩))

/-- Family 0xE: each listed `nn` is the sub-key of the instruction it selects. -/
theorem answers_decodeE (hh : hiOf w = 0xE#4) : Answers w (decodeE w) := by
  unfold decodeE
  split
  iterate 2 exact .ok _ (word_of_xnn hh ‹_›)
  exact .error _ (.inr (.inr (.inl ⟨hh, by simp_all⟩)))

/-- Family 0xF: each listed `nn` is the sub-key of the instruction it selects. -/
theorem answers_decodeF (hh : hiOf w = 0xF#4) : Answers w (decodeF w) := by
  unfold decodeF
  split
  iterate 9 exact .ok _ (word_of_xnn hh ‹_›)
  exact .error _ (.inr (.inr (.inr ⟨hh, by simp_all⟩)))

/-- Every top nibble has a handler (R104). -/
theorem nibble_mem_handlers : ∀ h : Nibble,
    h ∈ [0x0#4, 0x1#4, 0x2#4, 0x3#4, 0x4#4, 0x5#4, 0x6#4, 0x7#4, 0x8#4, 0x9#4, 0xA#4, 0xB#4, 0xC#4, 0xD#4, 0xE#4,
      0xF#4] := by
  decide

/-- The decoder's answer, along the first-level dispatch (R104). -/
theorem answers_decodeWord (w : Word) : Answers w (decodeWord w) := by
  unfold decodeWord
  split
  case h_1 hh => exact answers_decode0 hh
  case h_9 hh => exact answers_decode8 hh
  case h_15 hh => exact answers_decodeE hh
  case h_16 hh => exact answers_decodeF hh
  case h_2 hh | h_3 hh | h_11 hh | h_12 hh => exact .ok _ (word_of_nnn hh rfl)
  case h_4 hh | h_5 hh | h_7 hh | h_8 hh | h_13 hh => exact .ok _ (word_of_xnn hh rfl)
  case h_6 hh | h_10 hh | h_14 hh => exact .ok _ (word_of_xyn hh rfl)
  case h_17 => have hmem := nibble_mem_handlers (hiOf w); simp_all

end Answers

/-- Settles O3: the decoder answers an instruction only where the instruction encodes to the word. -/
theorem encodeInvertsDecode : Obligations.EncodeInvertsDecode := by
  intro w i hd
  have ha := answers_decodeWord w
  rw [hd] at ha
  cases ha with
  | ok _ he => exact he

/-! ## The second-level dispatch -/

section Families

variable {w : Word}

/-- Family 0x0 is decoded on `nnn` (R108). -/
theorem decodeWord_family0 (hh : hiOf w = 0x0#4) : decodeWord w = decode0 w := by simp only [decodeWord, hh]

/-- Family 0x8 is decoded on `n` (R105). -/
theorem decodeWord_family8 (hh : hiOf w = 0x8#4) : decodeWord w = decode8 w := by simp only [decodeWord, hh]

/-- Family 0xE is decoded on `nn` (R106). -/
theorem decodeWord_familyE (hh : hiOf w = 0xE#4) : decodeWord w = decodeE w := by simp only [decodeWord, hh]

/-- Family 0xF is decoded on `nn` (R107). -/
theorem decodeWord_familyF (hh : hiOf w = 0xF#4) : decodeWord w = decodeF w := by simp only [decodeWord, hh]

end Families

/-! ## The rows of the opcode map -/

/-- An instruction's word selects the instruction's own row (R109). -/
theorem encodeWord_matches_row : ∀ i : Instr, RowMatch.Statement i
  | .cls => RowMatch.cls
  | .ret => RowMatch.ret
  | .jp nnn => RowMatch.jp nnn
  | .call nnn => RowMatch.call nnn
  | .seImm x nn => RowMatch.seImm x nn
  | .sneImm x nn => RowMatch.sneImm x nn
  | .seReg x y n => RowMatch.seReg x y n
  | .ldImm x nn => RowMatch.ldImm x nn
  | .addImm x nn => RowMatch.addImm x nn
  | .ldReg x y => RowMatch.ldReg x y
  | .orReg x y => RowMatch.orReg x y
  | .andReg x y => RowMatch.andReg x y
  | .xorReg x y => RowMatch.xorReg x y
  | .addReg x y => RowMatch.addReg x y
  | .sub x y => RowMatch.sub x y
  | .shr x y => RowMatch.shr x y
  | .subn x y => RowMatch.subn x y
  | .shl x y => RowMatch.shl x y
  | .sneReg x y n => RowMatch.sneReg x y n
  | .ldI nnn => RowMatch.ldI nnn
  | .jpV0 nnn => RowMatch.jpV0 nnn
  | .rnd x nn => RowMatch.rnd x nn
  | .drw x y n => RowMatch.drw x y n
  | .skp x => RowMatch.skp x
  | .sknp x => RowMatch.sknp x
  | .ldVxDT x => RowMatch.ldVxDT x
  | .ldVxK x => RowMatch.ldVxK x
  | .ldDTVx x => RowMatch.ldDTVx x
  | .ldSTVx x => RowMatch.ldSTVx x
  | .addI x => RowMatch.addI x
  | .ldF x => RowMatch.ldF x
  | .ldB x => RowMatch.ldB x
  | .ldMemVx x => RowMatch.ldMemVx x
  | .ldVxMem x => RowMatch.ldVxMem x

/-- A row fixes the fields that lie under ones of its mask. -/
theorem field_of_masked {w mask v : Word} (start len : Nat) (hm : mask.extractLsb' start len = BitVec.allOnes len)
    (h : w &&& mask = v) : w.extractLsb' start len = v.extractLsb' start len := by
  rw [← h, BitVec.extractLsb'_and, hm, BitVec.and_allOnes]

/-- A word that a row selects decodes to an instruction of that row: the mask covers the nibbles that the dispatch reads
(R104 to R109). -/
theorem decodeWord_of_matches_row {w : Word} {j : Instr} (h : w &&& j.row.2 = j.row.1) :
    ∃ i, decodeWord w = .ok i ∧ i.row = j.row := by
  cases j with simp only [Instr.row] at h
  | cls | ret =>
    obtain rfl : w = _ := BitVec.and_allOnes.symm.trans h
    exact ⟨_, rfl, rfl⟩
  | jp | call | seImm | sneImm | seReg | ldImm | addImm | sneReg | ldI | jpV0 | rnd | drw =>
    have hhi : hiOf w = _ := field_of_masked 12 4 rfl h
    rw [decodeWord, hhi]
    exact ⟨_, rfl, rfl⟩
  | ldReg | orReg | andReg | xorReg | addReg | sub | shr | subn | shl =>
    have hhi : hiOf w = 0x8#4 := field_of_masked 12 4 rfl h
    have hn : nOf w = _ := field_of_masked 0 4 rfl h
    rw [decodeWord_family8 hhi, decode8, hn]
    exact ⟨_, rfl, rfl⟩
  | skp | sknp =>
    have hhi : hiOf w = 0xE#4 := field_of_masked 12 4 rfl h
    have hnn : nnOf w = _ := field_of_masked 0 8 rfl h
    rw [decodeWord_familyE hhi, decodeE, hnn]
    exact ⟨_, rfl, rfl⟩
  | ldVxDT | ldVxK | ldDTVx | ldSTVx | addI | ldF | ldB | ldMemVx | ldVxMem =>
    have hhi : hiOf w = 0xF#4 := field_of_masked 12 4 rfl h
    have hnn : nnOf w = _ := field_of_masked 0 8 rfl h
    rw [decodeWord_familyF hhi, decodeF, hnn]
    exact ⟨_, rfl, rfl⟩

/-- Settles O4: a word that decodes is the encoding of its instruction, which selects its own row; and a row fixes the
nibbles that the dispatch reads. -/
theorem rowsSelectOperations : Obligations.RowsSelectOperations := by
  refine ⟨fun w i hd => ?_, fun w j h => decodeWord_of_matches_row h⟩
  rw [← encodeInvertsDecode w i hd]
  exact encodeWord_matches_row i

/-! ## The words that select no operation -/

section Rejected

variable (w : Word)

/-- `hi` is the quotient by 0x1000 (R101). -/
theorem toNat_hiOf : (hiOf w).toNat = w.toNat / 0x1000 := by
  rw [hiOf, BitVec.extractLsb'_toNat, Nat.shiftRight_eq_div_pow, Nat.mod_eq_of_lt (by have := w.isLt; omega)]

/-- `n` is the remainder mod 16 (R101). -/
theorem toNat_nOf : (nOf w).toNat = w.toNat % 16 := BitVec.extractLsb'_toNat ..

/-- `nn` is the remainder mod 256 (R101). -/
theorem toNat_nnOf : (nnOf w).toNat = w.toNat % 256 := BitVec.extractLsb'_toNat ..

/-- `nnn` is the remainder mod 0x1000 (R101). -/
theorem toNat_nnnOf : (nnnOf w).toNat = w.toNat % 0x1000 := BitVec.extractLsb'_toNat ..

end Rejected

/-- The decoder rejects every unlisted word: none of its family's patterns matches the sub-key. -/
theorem decodeWord_error_of_unlisted {w : Word} (hu : Unlisted w) : ∃ e, decodeWord w = .error e := by
  obtain ⟨hh, hk⟩ | ⟨hh, hk⟩ | ⟨hh, hk⟩ | ⟨hh, hk⟩ := hu
  · exact ⟨.unlisted0, by rw [decodeWord_family0 hh]; unfold decode0; split <;> simp_all⟩
  · exact ⟨.unlisted8, by rw [decodeWord_family8 hh]; unfold decode8; split <;> simp_all⟩
  · exact ⟨.unlistedE, by rw [decodeWord_familyE hh]; unfold decodeE; split <;> simp_all⟩
  · exact ⟨.unlistedF, by rw [decodeWord_familyF hh]; unfold decodeF; split <;> simp_all⟩

/-- The decoder rejects the unlisted words and no others (R103, R111). -/
theorem decodeWord_error_iff (w : Word) : (∃ e, decodeWord w = .error e) ↔ Unlisted w := by
  refine ⟨fun ⟨e, hd⟩ => ?_, decodeWord_error_of_unlisted⟩
  have ha := answers_decodeWord w
  rw [hd] at ha
  cases ha with
  | error _ hu => exact hu

/-- Settles O5: the decoder rejects the unlisted words, whose fields are quotients and remainders of the word. -/
theorem unlistedWordsAreThese : Obligations.UnlistedWordsAreThese := by
  intro w
  refine (decodeWord_error_iff w).trans (or_congr ?_ (or_congr ?_ (or_congr ?_ ?_))) <;>
    simp only [List.mem_cons, List.not_mem_nil, or_false, ← BitVec.toNat_inj, toNat_hiOf, toNat_nOf, toNat_nnOf,
      toNat_nnnOf, BitVec.toNat_ofNat] <;>
    omega

/-! ## Words of the spec -/

/-- Settles O1: the decoder runs on each word. -/
theorem specWordsDecode : Obligations.SpecWordsDecode := by
  unfold Obligations.SpecWordsDecode
  decide

end Sys2Proof.EncodingProofs

namespace Sys2Proof.CycleProofs

open Sys2Proof.Machine Sys2Proof.Safety Sys2Proof.Laws Sys2Proof.StateProofs

/-! # The execution cycle (spec/40_execution_cycle.md)

## The end of an executed cycle -/

section EndOfExecutedCycle

variable {u : State}

/-- DT goes down by one, never below 0 (R140). -/
theorem endCycle_DT_toNat (hr : u.run = .running) : u.endCycle.DT.toNat = u.DT.toNat - 1 := by
  rw [endCycle_running u hr]
  exact decay_toNat u.DT

/-- ST goes down by one, never below 0 (R141). -/
theorem endCycle_ST_toNat (hr : u.run = .running) : u.endCycle.ST.toNat = u.ST.toNat - 1 := by
  rw [endCycle_running u hr]
  exact decay_toNat u.ST

/-- A beep is emitted exactly when ST goes down (R141). -/
theorem endCycle_events (hr : u.run = .running) :
    u.endCycle.io.events = (if u.ST = 0 then [] else [.beep]) ++ u.io.events := by
  rw [endCycle_running u hr]

/-- The end of a cycle leaves the control state alone. -/
theorem endCycle_control (u : State) : SameControl u u.endCycle := by
  obtain ⟨_, _, _, h⟩ := endCycle_shape u
  rw [h]
  exact ⟨rfl, rfl, rfl, rfl, rfl⟩

end EndOfExecutedCycle

/-! ## The answer of a step that fetched -/

section Executed

variable {s u : State} {w : Word} {i : Instr}

/-- A step that fetched a word answers what the word's execution left, with the end of the cycle after it (R130). -/
theorem step_of_executeWord (h : Fetches s w) (hx : executeWord w (handlerState s w) = .next u) :
    step s = .next u.endCycle := by
  rw [step_executes s w h, hx, finish]

/-- A step that fetched an instruction gives its answer the end of the cycle (R136). -/
theorem step_of_exec (h : Fetches s w) (hd : decodeWord w = .ok i) : step s = finish (exec i (handlerState s w)) := by
  rw [step_executes s w h, executeWord_ok w i _ hd]

/-- A machine still Running after a step from Running has executed a word in it (R130). -/
theorem executed_of_running {t : State} (hs : step s = .next t) (ht : t.run = .running) :
    ∃ w u, Fetches s w ∧ executeWord w (handlerState s w) = .next u ∧ u.run = .running ∧ t = u.endCycle := by
  cases step_next s t hs with
  | idle h => exact absurd ht h
  | halts | fetchFault | raised => simp at ht
  | unimpl w e h hd => exact ⟨w, _, h, executeWord_error w e _ hd, h.1, rfl⟩
  | done w i u h hd hx hr hq hno => exact ⟨w, u, h, (executeWord_ok w i _ hd).trans hx, hr, rfl⟩

/-- Execution writes DT by Fx15 only and ST by Fx18 only, and never beeps: the diagnostic is another event (R65, R66,
R254, R255). -/
theorem executeWord_timers (h : Fetches s w) (hx : executeWord w (handlerState s w) = .next u) :
    (u.DT = s.DT ∨ ∃ x, Decodes s (.ldDTVx x)) ∧ (u.ST = s.ST ∨ ∃ x, Decodes s (.ldSTVx x)) ∧ beeps u = beeps s := by
  obtain ⟨i, hd, e⟩ | ⟨_, -, e⟩ := executeWord_cases w (handlerState s w) <;> rw [e] at hx
  · have hw := exec_writes i _ u hx
    have hdec : Decodes s i := ⟨w, h, hd⟩
    exact ⟨hw.delay.imp_right fun ⟨x, hi⟩ => ⟨x, hi ▸ hdec⟩, hw.sound.imp_right fun ⟨x, hi⟩ => ⟨x, hi ▸ hdec⟩,
      beeps_exec i (handlerState s w) u hx⟩
  · cases hx
    exact ⟨.inl rfl, .inl rfl, List.count_cons_of_ne (by simp)⟩

end Executed

/-- Settles O11: the step's answer is the end of the cycle on what the word left. -/
theorem timersDecayEachExecutedCycle : Obligations.TimersDecayEachExecutedCycle := by
  intro s u w h hx hr
  exact ⟨u.endCycle, step_of_executeWord h hx, endCycle_DT_toNat hr, endCycle_ST_toNat hr, endCycle_events hr,
    endCycle_getV u, endCycle_pc u, endCycle_I u, fun a => by rw [endCycle_M],
    ⟨endCycle_sp u, endCycle_stackEntry u⟩, endCycle_control u⟩

/-- Settles O7: a word that selects no operation executes as its diagnostic, and the cycle ends as any other. -/
theorem unimplementedWordContinues : Obligations.UnimplementedWordContinues := by
  intro s w e h hd
  obtain ⟨t, hs, hDT, hST, hevents, hregs, hpc, hI, hM, hS, hcontrol⟩ :=
    timersDecayEachExecutedCycle s _ w h (executeWord_error w e _ hd) h.1
  exact ⟨t, hs, hpc, hregs, hI, hM, hS, hcontrol, hDT, hST, hevents⟩

/-- Settles O46: the write of Fx15 or Fx18 comes before the decay of the same cycle. -/
theorem writtenTimerDecaysInTheSameCycle : Obligations.WrittenTimerDecaysInTheSameCycle := by
  intro s x
  constructor
  · rintro ⟨w, h, hd⟩
    have hr : ((handlerState s w).setDT (s.getV x)).run = .running := h.1
    exact ⟨_, step_of_exec h hd, endCycle_DT_toNat hr⟩
  · rintro ⟨w, h, hd⟩
    have hr : ((handlerState s w).setST (s.getV x)).run = .running := h.1
    exact ⟨_, step_of_exec h hd, endCycle_ST_toNat hr, beeps_endCycle _ hr⟩

/-! ## The handler's state and the halting test -/

/-- The key sample is the head of the feed, or the level that stands (R62, log entry 8). -/
theorem nextKeys_eq_headD (io : Interface) : io.nextKeys = io.keyFeed.headD io.keys := by
  rw [Interface.nextKeys]
  cases io.keyFeed <;> rfl

/-- Settles O6: the state the cycle prepared is `handlerState`. -/
theorem stepRunsDecodedInstruction : Obligations.StepRunsDecodedInstruction := by
  intro s w i h hd
  have hs := step_of_exec h hd
  refine ⟨handlerState s w, rfl, rfl, nextKeys_eq_headD s.io, fun _ => rfl, rfl, fun _ => rfl, ⟨rfl, fun _ => rfl⟩,
    ⟨rfl, rfl⟩, ⟨rfl, rfl, rfl, rfl, rfl⟩, ?_, fun t hx => ?_, fun f hx => ?_, fun r hx => ?_⟩
  · rw [← nextKeys_eq_headD]
    rfl
  · rw [hs, hx, finish]
  · rw [hs, hx, finish]
  · rw [hs, hx, finish]

/-- At or past the end of the image a Running machine halts (R131). -/
theorem step_halts {s : State} (hr : s.run = .running) (hend : 0x200 + s.progSize.val ≤ s.pc.toNat) :
    step s = .next s.halt := by
  have hs : step s = cycle s := by rw [step, hr]
  rw [hs, cycle, if_pos (by simpa [State.atEnd] using hend)]

/-- Settles O8: of the cases of a step only `halts` leaves Halted, and it needs the end of the image. -/
theorem haltingTest : Obligations.HaltingTest := by
  refine ⟨fun s hr hend => step_halts hr hend, fun s t hr hlt hs => ?_⟩
  cases step_next s t hs with
  | idle h => exact absurd hr h
  | halts h hend => omega
  | fetchFault | raised => simp
  | unimpl w e h hd => simp [endCycle_run, handlerState, hr]
  | done w i u h hd hx hu hq hno => simp [endCycle_run, hu]

/-- Settles O56: PROG_SIZE is 0, so the reset pc is at the end of the image. -/
theorem emptyImageHaltsAtOnce : Obligations.EmptyImageHaltsAtOnce := by
  intro s p
  rw [resetTo_fits s p [] (Nat.zero_lt_succ _)]
  exact step_halts rfl (le_refl 0x200)

/-! ## Runs -/

/-- Settles O9: the law of the idle run. -/
theorem terminalStatesDoNothing : Obligations.TerminalStatesDoNothing := run_idle

section Runs

/-- `Q` holds of each state from which a run of `k` steps from `s` takes a step. -/
def AlongRun (Q : State → Prop) (k : Nat) (s : State) : Prop :=
  ∀ j, j < k → ∀ u : State, Sys2Proof.core.run j s = .next u → Q u

/-- A property along a run holds where it starts, and along the rest of it. -/
theorem alongRun_succ {Q : State → Prop} {k : Nat} {s u : State} (hQ : AlongRun Q (k + 1) s)
    (hs : step s = .next u) : Q s ∧ AlongRun Q k u :=
  ⟨hQ 0 (Nat.zero_lt_succ k) s rfl,
    fun j hj v hv => hQ (j + 1) (Nat.succ_lt_succ hj) v ((run_succ j s v).mpr ⟨u, hs, hv⟩)⟩

/-- A run that ends Running was Running where it started: no step leaves a terminal state (R144). -/
theorem running_of_run {k : Nat} {s t : State} (hrun : Sys2Proof.core.run k s = .next t) (ht : t.run = .running) :
    s.run = .running := by
  by_contra hne
  have e : t = s := Host.Outcome.next.inj (hrun.symm.trans (run_idle k s hne))
  exact hne (e ▸ ht)

/-- Induction along a run that ends Running, with `Q` before each step: every step of it ends Running. -/
theorem runningRun_induction {Q : State → Prop} {P : Nat → State → State → Prop} (zero : ∀ s, P 0 s s)
    (succ : ∀ k s u t, Q s → step s = .next u → u.run = .running → P k u t → P (k + 1) s t) :
    ∀ (k : Nat) (s t : State), AlongRun Q k s → Sys2Proof.core.run k s = .next t → t.run = .running → P k s t := by
  intro k
  induction k with
  | zero =>
    intro s t _ hrun _
    cases hrun
    exact zero s
  | succ k ih =>
    intro s t hQ hrun ht
    obtain ⟨u, hs, hrest⟩ := (run_succ k s t).mp hrun
    obtain ⟨hQs, hQu⟩ := alongRun_succ hQ hs
    exact succ k s u t hQs hs (running_of_run hrest ht) (ih u t hQu hrest ht)

variable {s t : State}

/-- A step that does not run Fx15 and ends Running takes one from DT (R140). -/
theorem step_DT_toNat (hno : ∀ x, ¬ Decodes s (.ldDTVx x)) (hs : step s = .next t) (ht : t.run = .running) :
    t.DT.toNat = s.DT.toNat - 1 := by
  obtain ⟨w, u, h, hx, hr, rfl⟩ := executed_of_running hs ht
  obtain ⟨hDT, -, -⟩ := executeWord_timers h hx
  rw [endCycle_DT_toNat hr, hDT.resolve_right fun ⟨x, hd⟩ => hno x hd]

/-- A step that does not run Fx18 and ends Running takes one from ST, with a beep if there was one to take (R141). -/
theorem step_ST_toNat (hno : ∀ x, ¬ Decodes s (.ldSTVx x)) (hs : step s = .next t) (ht : t.run = .running) :
    t.ST.toNat = s.ST.toNat - 1 ∧ beeps t = beeps s + min s.ST.toNat 1 := by
  obtain ⟨w, u, h, hx, hr, rfl⟩ := executed_of_running hs ht
  obtain ⟨-, hST, hbeeps⟩ := executeWord_timers h hx
  rw [endCycle_ST_toNat hr, beeps_endCycle u hr, hbeeps, hST.resolve_right fun ⟨x, hd⟩ => hno x hd]
  exact ⟨rfl, rfl⟩

end Runs

/-- Settles O47, for each timer by induction along the run. -/
theorem timersCountDownAlongRuns : Obligations.TimersCountDownAlongRuns := by
  intro k s t hrun ht
  constructor
  · intro hno
    refine runningRun_induction (P := fun k s t => t.DT.toNat = s.DT.toNat - k) (fun _ => rfl) ?_ k s t hno hrun ht
    intro k s u t hno hs hu ih
    rw [ih, step_DT_toNat hno hs hu]
    omega
  · intro hno
    refine runningRun_induction (P := fun k s t => t.ST.toNat = s.ST.toNat - k ∧ beeps t = beeps s + min s.ST.toNat k)
      (fun _ => ⟨rfl, by simp⟩) ?_ k s t hno hrun ht
    intro k s u t hno hs hu ih
    obtain ⟨hST, hbeeps⟩ := step_ST_toNat hno hs hu
    omega

/-! ### The self-jump -/

/-- What is fetched depends on run, pc, PROG_SIZE and memory only. -/
theorem fetches_congr {s t : State} {w : Word} (h : Fetches s w) (hr : t.run = s.run) (hpc : t.pc = s.pc)
    (hsize : t.progSize = s.progSize) (hM : t.M = s.M) : Fetches t w := by
  rwa [Fetches, hr, hpc, hsize, hM]

/-- Where a word is fetched, pc is a 12-bit address (R133). -/
theorem fetches_addrOf_pc {s : State} {w : Word} (h : Fetches s w) : addrOf (s.pc.setWidth 12) = s.pc := by
  obtain ⟨-, -, hpc, -⟩ := h
  apply BitVec.eq_of_toNat_eq
  rw [addrOf, BitVec.toNat_setWidth, BitVec.toNat_setWidth]
  omega

/-- A cycle that runs a jump: pc is the target, and of the rest only the timers, the latches and the interface change
(R140, R163). -/
theorem step_jp {s : State} {w : Word} {nnn : Addr12} (h : Fetches s w) (hd : decodeWord w = .ok (.jp nnn)) :
    ∃ u, step s = .next u ∧ u.pc = addrOf nnn ∧ u.run = s.run ∧ u.progSize = s.progSize ∧ u.M = s.M ∧ SameRegs s u ∧
      u.DT.toNat = s.DT.toNat - 1 ∧ u.ST.toNat = s.ST.toNat - 1 := by
  have hr : ((handlerState s w).setPc (addrOf nnn)).run = .running := h.1
  exact ⟨_, step_of_exec h hd, endCycle_pc _, endCycle_run _, endCycle_progSize _, endCycle_M _, endCycle_getV _,
    endCycle_DT_toNat hr, endCycle_ST_toNat hr⟩

/-- One cycle of a self-jump: the same jump is fetched again, and the timers went down. -/
theorem step_selfJump {s : State} (h : Decodes s (.jp (s.pc.setWidth 12))) :
    ∃ u, step s = .next u ∧ Decodes u (.jp (u.pc.setWidth 12)) ∧ u.pc = s.pc ∧ SameRegs s u ∧ SameMemory s u ∧
      u.DT.toNat = s.DT.toNat - 1 ∧ u.ST.toNat = s.ST.toNat - 1 := by
  obtain ⟨w, hw, hd⟩ := h
  obtain ⟨u, hs, htarget, hr, hsize, hM, hregs, hDT, hST⟩ := step_jp hw hd
  have hpc : u.pc = s.pc := htarget.trans (fetches_addrOf_pc hw)
  exact ⟨u, hs, ⟨w, fetches_congr hw hr hpc hsize hM, by rw [hpc, hd]⟩, hpc, hregs, fun a => by rw [hM], hDT, hST⟩

/-- Settles O26, by induction on the number of steps: each is one cycle of the self-jump. -/
theorem selfJumpRunsForever : Obligations.SelfJumpRunsForever := by
  intro k
  induction k with
  | zero => exact fun s ⟨_, hw, _⟩ => ⟨s, rfl, hw.1, rfl, fun _ => rfl, fun _ => rfl, rfl, rfl⟩
  | succ k ih =>
    intro s h
    obtain ⟨u, hs, hu, hpc, hregs, hM, hDT, hST⟩ := step_selfJump h
    obtain ⟨t, hrun, hr, hpc', hregs', hM', hDT', hST'⟩ := ih u hu
    refine ⟨t, (run_succ k s t).mpr ⟨u, hs, hrun⟩, hr, hpc'.trans hpc, fun z => (hregs' z).trans (hregs z),
      fun a => (hM' a).trans (hM a), ?_, ?_⟩ <;> omega

end Sys2Proof.CycleProofs

namespace Sys2Proof.FlowProofs

open Sys2Proof.Machine Sys2Proof.Safety Sys2Proof.Laws Sys2Proof.StateProofs

/-! # Control transfer (spec/41_flow.md)

## Jumps and skips -/

section Jumps

variable (s : State)

/-- A write of pc is a jump and nothing else (R163). -/
theorem onlyJumps_setPc (target : Word) : OnlyJumps (.next (s.setPc target)) s target :=
  ⟨_, rfl, setPc_pc s target, setPc_getV s target, rfl, fun _ => rfl, rfl, ⟨rfl, setPc_stackEntry s target⟩, ⟨rfl, rfl⟩,
    ⟨rfl, rfl, rfl, rfl, rfl⟩, rfl, rfl⟩

/-- A skip on equality jumps over the next word where the bytes agree (R160, R164, R166). -/
theorem onlyJumps_skipIf_beq (a b : Byte) :
    OnlyJumps (.next (s.skipIf (a == b))) s (if a = b then s.pc + 2 else s.pc) := by
  simpa only [skipIf_eq, beq_iff_eq] using onlyJumps_setPc s (if a = b then s.pc + 2 else s.pc)

/-- A skip on inequality jumps over the next word where the bytes differ (R160, R165, R167). -/
theorem onlyJumps_skipIf_bne (a b : Byte) :
    OnlyJumps (.next (s.skipIf (a != b))) s (if a = b then s.pc else s.pc + 2) := by
  simpa only [skipIf_eq, bne_iff_ne, ite_not] using onlyJumps_setPc s (if a = b then s.pc else s.pc + 2)

/-- The pc after a skip does not wrap (R164): the instruction was fetched from 0xFFF or below. -/
theorem skip_pc_le (h : s.pcI.toNat ≤ 0xFFF) : (s.pc + 2).toNat ≤ 0x1003 := by
  rw [State.pcI] at h
  bv_omega

end Jumps

/-- The target of JP V0 is a sum of naturals: it does not wrap (R168). -/
theorem indexed_target_eq (nnn : Addr12) (v : Byte) : addrOf nnn + zext16 v = BitVec.ofNat 16 (nnn.toNat + v.toNat) := by
  rw [BitVec.ofNat_add, BitVec.ofNat_toNat, BitVec.ofNat_toNat, addrOf, zext16]

/-- Settles O25: each is one write of pc, and the two fields bound the indexed target. -/
theorem jumpsGoToTheirTarget : Obligations.JumpsGoToTheirTarget := by
  intro s nnn
  refine ⟨or_nnn 0x1 nnn, or_nnn 0xB nnn, onlyJumps_setPc s (addrOf nnn), ?_, ?_⟩
  · rw [← indexed_target_eq]
    exact onlyJumps_setPc s _
  · have := nnn.isLt
    have := (s.getV 0).isLt
    omega

/-- Settles O27: the four meanings are skips on the equality or the inequality of two bytes. -/
theorem skipsOnComparison : Obligations.SkipsOnComparison := by
  intro s x y n nn
  exact ⟨or_xnn 0x3 x nn, or_xnn 0x4 x nn, or_xyn 0x5 x y n, or_xyn 0x9 x y n, skip_pc_le s,
    onlyJumps_skipIf_beq s (s.getV x) nn, onlyJumps_skipIf_bne s (s.getV x) nn,
    onlyJumps_skipIf_beq s (s.getV x) (s.getV y), onlyJumps_skipIf_bne s (s.getV x) (s.getV y)⟩

/-! ## Calls and returns -/

section Calls

variable {s : State}

/-- Below depth 16 CALL pushes the pc its handler sees and jumps: a push writes sp and S only (R162). -/
theorem exec_call_of_sp_lt (nnn : Addr12) (h : s.sp.toNat < 16) :
    ∃ S', s.push s.pc = some { s with sp := s.sp + 1, S := S' } ∧
      exec (.call nnn) s = .next { s with pc := addrOf nnn, sp := s.sp + 1, S := S' } := by
  have hne : s.sp ≠ 16 := by
    rintro e
    rw [e] at h
    exact absurd h (by decide)
  obtain ⟨-, hlt, hpush⟩ | ⟨hge, -⟩ := push_cases s s.pc
  · refine ⟨_, hpush, ?_⟩
    rw [exec, execCall, if_neg hne, hpush]
    rfl
  · omega

/-- With an entry on the stack RET jumps to the top one and pops it (R161). -/
theorem exec_ret_of_stackEntry {v : Word} (h0 : s.sp ≠ 0) (hv : s.stackEntry s.sp.toNat = some v) :
    exec .ret s = .next { s with pc := v, sp := s.sp - 1 } := by
  rw [exec, execRet, if_neg h0, State.pop, hv]

end Calls

/-- Settles O28: below 16 the push completes and its entries are known; at 16 the fault test comes first. -/
theorem callPushesReturnAddress : Obligations.CallPushesReturnAddress := by
  intro s nnn
  refine ⟨or_nnn 0x2 nnn, fun h => ?_, fun h => ?_⟩
  · obtain ⟨S', hpush, hexec⟩ := exec_call_of_sp_lt nnn h
    have hentry := push_stackEntry s _ s.pc hpush
    exact ⟨_, hexec, rfl, sp_succ s h, (hentry _).trans (if_pos rfl), fun k hk => (hentry k).trans (if_neg hk),
      fun _ => rfl, rfl, fun _ => rfl, ⟨rfl, rfl⟩, ⟨rfl, rfl, rfl, rfl, rfl⟩, ⟨rfl, rfl⟩, rfl⟩
  · rw [exec_raises (.call nnn) s .stackOverflow h]
    exact takesFault_raise s .stackOverflow

/-- Settles O29: from 1 to 16 the top entry exists; at 0 the fault test comes first. -/
theorem returnPopsReturnAddress : Obligations.ReturnPopsReturnAddress := by
  intro s
  refine ⟨rfl, fun h1 h16 => ?_, fun h => ?_⟩
  · have h0 : s.sp ≠ 0 := by
      rintro e
      rw [e] at h1
      exact absurd h1 (by decide)
    have htop := stackEntry_eq s s.sp.toNat ⟨h1, h16⟩
    exact ⟨_, exec_ret_of_stackEntry h0 htop, htop, sp_pred s h0, fun _ => rfl, fun _ => rfl, rfl, fun _ => rfl,
      ⟨rfl, rfl⟩, ⟨rfl, rfl, rfl, rfl, rfl⟩, ⟨rfl, rfl⟩, rfl⟩
  · rw [exec_raises .ret s .stackUnderflow h]
    exact takesFault_raise s .stackUnderflow

/-- Settles O31: the entry the call pushed is the one the return reads. -/
theorem returnComesBackAfterCall : Obligations.ReturnComesBackAfterCall := by
  intro s nnn h
  obtain ⟨-, hcall, -⟩ := callPushesReturnAddress s nnn
  obtain ⟨t, ht, -, htsp, htop, -⟩ := hcall h
  obtain ⟨-, hret, -⟩ := returnPopsReturnAddress t
  obtain ⟨u, hu, hpc, husp, -⟩ := hret (by omega) (by omega)
  refine ⟨t, u, ht, hu, ?_, BitVec.eq_of_toNat_eq (by omega)⟩
  rw [htsp, htop] at hpc
  exact (Option.some.inj hpc).symm

end Sys2Proof.FlowProofs

namespace Sys2Proof.AluProofs

open Sys2Proof.Machine Sys2Proof.Safety Sys2Proof.Laws

/-! # Registers and arithmetic (spec/42_alu.md)

## Words, and byte results as naturals modulo 256 (R190) -/

/-- A word of three register fields with the bits that its row fixes, `h` and `n`, joined first (R101, R109). -/
theorem or_fixed_xy (h x y n : Nibble) :
    (h ++ x ++ y ++ n : Word) =
      (h.setWidth 16 <<< 12 ||| n.setWidth 16) ||| x.setWidth 16 <<< 8 ||| y.setWidth 16 <<< 4 := by
  rw [or_xyn]
  ac_rfl

theorem byte_add_eq (p q : Byte) : p + q = BitVec.ofNat 8 ((p.toNat + q.toNat) % 256) :=
  BitVec.eq_of_toNat_eq (by simp)

theorem byte_sub_eq (p q : Byte) : p - q = BitVec.ofNat 8 ((p.toNat + 256 - q.toNat) % 256) := by
  have := q.isLt
  exact BitVec.eq_of_toNat_eq (by simp; omega)

theorem byte_shiftRight_one_eq (p : Byte) : p >>> 1 = BitVec.ofNat 8 (p.toNat / 2) :=
  BitVec.eq_of_toNat_eq (by simp [Nat.shiftRight_eq_div_pow]; omega)

theorem byte_shiftLeft_one_eq (p : Byte) : p <<< 1 = BitVec.ofNat 8 (2 * p.toNat % 256) :=
  BitVec.eq_of_toNat_eq (by simp [Nat.shiftLeft_eq, Nat.mul_comm])

/-! ## One register write -/

/-- A write of V[x] changes that register and nothing else (R15, R30). -/
theorem writesRegister_setV (s : State) (x : Nibble) (v : Byte) : WritesRegister (.next (s.setV x v)) s x v :=
  ⟨_, rfl, getV_setV_same s x v, fun z hz => getV_setV_ne s x z v hz, rfl, rfl, fun _ => rfl, rfl,
    ⟨rfl, setV_stackEntry s x v⟩, ⟨rfl, rfl⟩, ⟨rfl, rfl, rfl, rfl, rfl⟩, rfl, rfl⟩

/-- Settles O32: each of the six meanings is one register write. -/
theorem loadAddAndLogicResults : Obligations.LoadAddAndLogicResults := by
  intro s x y nn
  refine ⟨or_xnn 0x6 x nn, or_xnn 0x7 x nn, or_fixed_xy 0x8 x y 0x0, or_fixed_xy 0x8 x y 0x1, or_fixed_xy 0x8 x y 0x2,
    or_fixed_xy 0x8 x y 0x3, writesRegister_setV s x nn, ?_, writesRegister_setV s x _, writesRegister_setV s x _,
    writesRegister_setV s x _, writesRegister_setV s x _⟩
  rw [← byte_add_eq]
  exact writesRegister_setV s x _

/-! ## Flag and result (R200) -/

/-- The byte of a flag is 1 or 0 (R191). -/
theorem flagByte_toNat (p : Prop) [Decidable p] : (flagByte (decide p)).toNat = if p then 1 else 0 := by
  by_cases h : p <;> simp [flagByte, h]

section FlagAndResult

variable (flag result : Byte → Byte → Byte) (x y : Nibble) (s : State)

/-- A flag-writing operation changes VF and V[x] and nothing else; where an operand is VF, the result reads the flag
(R200). -/
theorem writesFlagAndRegister_flagThenResult :
    WritesFlagAndRegister (.next (flagThenResult flag result x y s)) s (flag (s.getV x) (s.getV y)) x
      (result (if x = VF then flag (s.getV x) (s.getV y) else s.getV x)
        (if y = VF then flag (s.getV x) (s.getV y) else s.getV y)) := by
  refine ⟨_, rfl, ?_, fun hx => ?_, fun z hz => ?_, rfl, rfl, fun _ => rfl, rfl, ⟨rfl, fun _ => rfl⟩, ⟨rfl, rfl⟩,
    ⟨rfl, rfl, rfl, rfl, rfl⟩, rfl, rfl⟩
  · rw [getV_flagThenResult, if_pos rfl]
  · rw [getV_flagThenResult, if_neg hx.symm, if_pos rfl]
  · obtain ⟨hzx, hzf⟩ := not_or.mp hz
    rw [getV_flagThenResult, if_neg hzx, if_neg hzf]

/-- The four cases of which operand is VF (R201, R202, R204), on naturals: the flag `c` stands in for an operand that
is VF. -/
theorem writesFlagAndRegister_by_operands {c : Nat} (r : Nat → Nat → Nat) {v : Byte}
    (hflag : (flag (s.getV x) (s.getV y)).toNat = c)
    (hresult : ∀ p q, result p q = BitVec.ofNat 8 (r p.toNat q.toNat))
    (hboth : x = VF → y = VF → BitVec.ofNat 8 (r c c) = v) :
    (x ≠ VF → y ≠ VF → WritesFlagAndRegister (.next (flagThenResult flag result x y s)) s (BitVec.ofNat 8 c) x
      (BitVec.ofNat 8 (r (s.getV x).toNat (s.getV y).toNat))) ∧
    (x = VF → y ≠ VF → WritesFlagAndRegister (.next (flagThenResult flag result x y s)) s (BitVec.ofNat 8 c) x
      (BitVec.ofNat 8 (r c (s.getV y).toNat))) ∧
    (x ≠ VF → y = VF → WritesFlagAndRegister (.next (flagThenResult flag result x y s)) s (BitVec.ofNat 8 c) x
      (BitVec.ofNat 8 (r (s.getV x).toNat c))) ∧
    (x = VF → y = VF → WritesFlagAndRegister (.next (flagThenResult flag result x y s)) s (BitVec.ofNat 8 c) x v) := by
  have h := writesFlagAndRegister_flagThenResult flag result x y s
  subst hflag
  rw [hresult] at h
  rw [BitVec.ofNat_toNat, BitVec.setWidth_eq]
  refine ⟨fun hx hy => ?_, fun hx hy => ?_, fun hx hy => ?_, fun hx hy => ?_⟩
  · rwa [if_neg hx, if_neg hy] at h
  · rwa [if_pos hx, if_neg hy] at h
  · rwa [if_neg hx, if_pos hy] at h
  · rwa [if_pos hx, if_pos hy, hboth hx hy] at h

end FlagAndResult

/-- Settles O33: where both operands are VF the sum is twice the carry of VF + VF. -/
theorem addWritesCarryThenSum : Obligations.AddWritesCarryThenSum := by
  intro s x y
  refine ⟨or_fixed_xy 0x8 x y 0x4, writesFlagAndRegister_by_operands carryFlag (· + ·) x y s
    (fun a b => (a + b) % 256) (flagByte_toNat _) byte_add_eq ?_⟩
  rintro rfl rfl
  by_cases h : (s.getV VF).toNat ≥ 0x80
  · rw [if_pos h, if_pos (by omega)]
  · rw [if_neg h, if_neg (by omega)]

/-- Settles O34: no byte is above itself, so where both operands are VF the flag is 0. -/
theorem subWritesStrictFlagThenDifference : Obligations.SubWritesStrictFlagThenDifference := by
  intro s x y
  refine ⟨or_fixed_xy 0x8 x y 0x5, writesFlagAndRegister_by_operands notBorrowFlag (· - ·) x y s
    (fun a b => (a + 256 - b) % 256) (flagByte_toNat _) byte_sub_eq ?_⟩
  rintro rfl rfl
  rw [if_neg (lt_irrefl _)]
  rfl

/-- Settles O35: the difference of O34 with its operands exchanged. -/
theorem subnWritesStrictFlagThenDifference : Obligations.SubnWritesStrictFlagThenDifference := by
  intro s x y
  refine ⟨or_fixed_xy 0x8 x y 0x7, writesFlagAndRegister_by_operands notBorrowRevFlag (fun a b => b - a) x y s
    (fun a b => (b + 256 - a) % 256) (flagByte_toNat _) (fun p q => byte_sub_eq q p) ?_⟩
  rintro rfl rfl
  rw [if_neg (lt_irrefl _)]
  rfl

/-! ## Shifts -/

theorem shiftedOutRight_eq (p : Byte) : shiftedOutRight p = BitVec.ofNat 8 (p.toNat % 2) :=
  BitVec.eq_of_toNat_eq (by simp [shiftedOutRight, Nat.and_one_is_mod]; omega)

theorem shiftedOutLeft_eq (p : Byte) : shiftedOutLeft p = BitVec.ofNat 8 (p.toNat / 128) :=
  BitVec.eq_of_toNat_eq (by simp [shiftedOutLeft, Nat.shiftRight_eq_div_pow]; omega)

/-- The bit SHR shifts out is lost when it is shifted in turn (R203). -/
theorem shiftedOutRight_shiftRight (p : Byte) : shiftedOutRight p >>> 1 = 0 := by
  rw [byte_shiftRight_one_eq, shiftedOutRight_eq]
  exact BitVec.eq_of_toNat_eq (by simp; omega)

/-- The bit SHL shifts out is doubled when it is shifted in turn (R205). -/
theorem shiftedOutLeft_shiftLeft (p : Byte) : shiftedOutLeft p <<< 1 = BitVec.ofNat 8 (2 * (p.toNat / 128)) := by
  rw [byte_shiftLeft_one_eq, shiftedOutLeft_eq]
  exact BitVec.eq_of_toNat_eq (by simp)

/-- An in-place operation on one register (R203, R205): with x = VF it works on the flag. -/
theorem writesFlagAndRegister_inPlace (flag result : Byte → Byte) (x : Nibble) (s : State) :
    WritesFlagAndRegister (.next (flagThenResult (fun a _ => flag a) (fun a _ => result a) x x s)) s
      (flag (s.getV x)) x (if x = VF then result (flag (s.getV x)) else result (s.getV x)) := by
  rw [← apply_ite result]
  exact writesFlagAndRegister_flagThenResult (fun a _ => flag a) (fun a _ => result a) x x s

/-- Settles O36: both are in-place operations on V[x], whose `y` is not read. -/
theorem shiftsWriteBitOutThenShift : Obligations.ShiftsWriteBitOutThenShift := by
  intro s x y
  refine ⟨or_fixed_xy 0x8 x y 0x6, or_fixed_xy 0x8 x y 0xE, ?_, ?_⟩
  · rw [← shiftedOutRight_eq, ← byte_shiftRight_one_eq, ← shiftedOutRight_shiftRight (s.getV x)]
    exact writesFlagAndRegister_inPlace shiftedOutRight (· >>> 1) x s
  · rw [← shiftedOutLeft_eq, ← byte_shiftLeft_one_eq, ← shiftedOutLeft_shiftLeft]
    exact writesFlagAndRegister_inPlace shiftedOutLeft (· <<< 1) x s

end Sys2Proof.AluProofs

namespace Sys2Proof.DisplayProofs

open Sys2Proof.Machine Sys2Proof.Safety Sys2Proof.Laws Sys2Proof.StateProofs

/-! # The display (spec/43_display.md): the order of a sprite's pixels, and CLS -/

/-- Settles O40: the pixels are those of the set bits, named row by row and in a row from left to right. -/
theorem spriteColumnsAreMsbFirst : Obligations.SpriteColumnsAreMsbFirst := fun m base n cx cy =>
  ⟨mem_spritePixels m base n cx cy, spritePixels_pairwise m base n cx cy⟩

/-- An event is emitted to the interface's list, and nothing else of the machine changes (R13). -/
theorem emit_frame (s : State) (e : Event) :
    SameRegs s (s.emit e) ∧ (s.emit e).pc = s.pc ∧ (s.emit e).I = s.I ∧ SameMemory s (s.emit e) ∧
      SameRest s (s.emit e) :=
  ⟨emit_getV s e, emit_pc s e, emit_I s e, fun _ => rfl, ⟨emit_sp s e, emit_stackEntry s e⟩,
    ⟨emit_DT s e, emit_ST s e⟩, ⟨emit_progSize s e, emit_run s e, emit_faultCause s e, emit_faultPc s e,
    emit_faultOp s e⟩, emit_op s e, emit_K s e⟩

/-- Settles O38: CLS is two events, and the second changes as little as the first. -/
theorem clearThenPresent : Obligations.ClearThenPresent := by
  intro s
  refine ⟨rfl, (s.emit .clear).emit .present, rfl, rfl, ?_⟩
  -- The frame speaks of no field that the clear wrote, so kept from `s.emit .clear` is kept from `s`.
  exact emit_frame (s.emit .clear) .present

end Sys2Proof.DisplayProofs

namespace Sys2Proof.KeyTimerProofs

open Sys2Proof.Machine Sys2Proof.Safety Sys2Proof.Laws Sys2Proof.StateProofs Sys2Proof.FlowProofs Sys2Proof.AluProofs

/-! # Keys and timers (spec/44_keys_timers.md) -/

/-- A word of one register field with the bits that its row fixes, `h` and `nn`, joined first (R101, R109). -/
theorem or_fixed_x (h x : Nibble) (nn : Byte) :
    (h ++ x ++ nn : Word) = (h.setWidth 16 <<< 12 ||| nn.setWidth 16) ||| x.setWidth 16 <<< 8 := by
  rw [or_xnn]
  ac_rfl

/-! ## The key wait -/

section KeyWait

variable {s : State} (x : Nibble)

/-- A scan of a sample with no key in it finds none (R253). -/
theorem scanKeys_of_none_held (h : ∀ k, k < 16 → s.K.getLsbD k = false) : s.scanKeys = none := by
  obtain ⟨hscan, -⟩ | ⟨k, -, hk, -⟩ := scanKeys_spec s
  · exact hscan
  · exact absurd hk (by simp [State.keyHeld, h k.toNat k.isLt])

/-- A scan finds the key held above which none is (R253). -/
theorem scanKeys_of_highest_held {k : Nat} (hlt : k < 16) (hk : s.K.getLsbD k = true)
    (htop : ∀ j, j < 16 → k < j → s.K.getLsbD j = false) : s.scanKeys = some (BitVec.ofNat 4 k) := by
  have hto : (BitVec.ofNat 4 k).toNat = k := Nat.mod_eq_of_lt hlt
  have hheld : s.keyHeld (BitVec.ofNat 4 k) = true := by rwa [State.keyHeld, hto]
  obtain ⟨-, hnone⟩ | ⟨m, hscan, hm, habove⟩ := scanKeys_spec s
  · exact absurd hheld (by simp [hnone])
  · -- Neither of the two keys held is above the other.
    have hmk : ¬ k < m.toNat := fun h => absurd hm (by simp [State.keyHeld, htop m.toNat m.isLt h])
    have hkm : ¬ m.toNat < k := fun h => absurd hheld (by simp [habove (BitVec.ofNat 4 k) (hto.symm ▸ h)])
    have hmto : m.toNat = k := by omega
    rw [hscan, ← hmto, BitVec.ofNat_toNat, BitVec.setWidth_eq]

/-- With no key found the wait rewinds pc (R253). -/
theorem exec_ldVxK_of_none (h : s.scanKeys = none) : exec (.ldVxK x) s = .next (s.setPc (s.pc - 2)) := by
  rw [exec, execLdVxK, h]

/-- With a key found the wait ends with its number in V[x] (R253). -/
theorem exec_ldVxK_of_some {k : Nibble} (h : s.scanKeys = some k) :
    exec (.ldVxK x) s = .next (s.setV x (k.setWidth 8)) := by
  rw [exec, execLdVxK, h]

end KeyWait

/-- Settles O44: the scan of the sample finds nothing, or the highest key held. -/
theorem keyWaitRewindsOrStoresHighest : Obligations.KeyWaitRewindsOrStoresHighest := by
  intro s x
  refine ⟨or_fixed_x 0xF x 0x0A, fun hnone => ?_, fun k hlt hk htop => ?_⟩
  · rw [exec_ldVxK_of_none x (scanKeys_of_none_held hnone)]
    exact onlyJumps_setPc s (s.pc - 2)
  · rw [exec_ldVxK_of_some x (scanKeys_of_highest_held hlt hk htop),
      BitVec.setWidth_ofNat_of_le_of_lt (by decide) hlt]
    exact writesRegister_setV s x (BitVec.ofNat 8 k)

/-! ## The key tests -/

section KeyTests

variable (s : State) (x : Nibble)

/-- Up to 0xF, SKP is a skip on the sample's bit (R250). -/
theorem exec_skp_inRange (h : (s.getV x).toNat ≤ 0xF) :
    exec (.skp x) s = .next (s.skipIf (s.K.getLsbD (s.getV x).toNat)) := by
  obtain ⟨-, k, hindex, hk⟩ | ⟨hgt, -⟩ := keyIndex_cases (s.getV x)
  · rw [exec, execSkp, hindex, ← hk]
    rfl
  · omega

/-- Up to 0xF, SKNP is a skip on the negated bit (R251). -/
theorem exec_sknp_inRange (h : (s.getV x).toNat ≤ 0xF) :
    exec (.sknp x) s = .next (s.skipIf !s.K.getLsbD (s.getV x).toNat) := by
  obtain ⟨-, k, hindex, hk⟩ | ⟨hgt, -⟩ := keyIndex_cases (s.getV x)
  · rw [exec, execSknp, hindex, ← hk]
    rfl
  · omega

/-- A skip on a bit jumps over the next word where it is set (R160). -/
theorem onlyJumps_skipIf (c : Bool) : OnlyJumps (.next (s.skipIf c)) s (if c = true then s.pc + 2 else s.pc) := by
  rw [skipIf_eq]
  exact onlyJumps_setPc s _

/-- A skip on a negated bit jumps over the next word where the bit is clear (R160). -/
theorem onlyJumps_skipIf_not (c : Bool) :
    OnlyJumps (.next (s.skipIf !c)) s (if c = true then s.pc else s.pc + 2) := by
  simpa only [Bool.not_eq_true', ← Bool.not_eq_true, ite_not] using onlyJumps_skipIf s !c

end KeyTests

/-- Settles O43: in range each test is a skip on the sample's bit, and above 0xF both raise KeyRange. -/
theorem keySkipsTestTheSample : Obligations.KeySkipsTestTheSample := by
  intro s x
  refine ⟨or_fixed_x 0xE x 0x9E, or_fixed_x 0xE x 0xA1, fun h => ?_, fun h => ?_⟩
  · rw [exec_skp_inRange s x h, exec_sknp_inRange s x h]
    exact ⟨onlyJumps_skipIf s _, onlyJumps_skipIf_not s _⟩
  · rw [exec_raises (.skp x) s .keyRange h, exec_raises (.sknp x) s .keyRange h]
    exact ⟨takesFault_raise s .keyRange, takesFault_raise s .keyRange⟩

/-! ## The timers -/

/-- Settles O45: each transfer is one write, of V[x], of DT or of ST. -/
theorem timerTransfers : Obligations.TimerTransfers := by
  intro s x
  refine ⟨or_fixed_x 0xF x 0x07, or_fixed_x 0xF x 0x15, or_fixed_x 0xF x 0x18, writesRegister_setV s x s.DT, ?_, ?_⟩
  · exact ⟨s.setDT (s.getV x), rfl, setDT_DT s _, setDT_ST s _, setDT_getV s _, rfl, rfl, fun _ => rfl,
      ⟨rfl, setDT_stackEntry s _⟩, ⟨rfl, rfl, rfl, rfl, rfl⟩, ⟨rfl, rfl⟩, rfl⟩
  · exact ⟨s.setST (s.getV x), rfl, setST_ST s _, setST_DT s _, setST_getV s _, rfl, rfl, fun _ => rfl,
      ⟨rfl, setST_stackEntry s _⟩, ⟨rfl, rfl, rfl, rfl, rfl⟩, ⟨rfl, rfl⟩, rfl⟩

end Sys2Proof.KeyTimerProofs

namespace Sys2Proof.IndexMemoryProofs

open Sys2Proof.Machine Sys2Proof.Safety Sys2Proof.Laws Sys2Proof.StateProofs Sys2Proof.MemoryProofs Sys2Proof.KeyTimerProofs

/-! # The index register and the memory transfers (spec/45_index_memory.md)

## The index register -/

/-- A write of I changes I and nothing else (R33). -/
theorem onlySetsIndex_setI (s : State) (v : Word) : OnlySetsIndex (.next (s.setI v)) s v :=
  ⟨s.setI v, rfl, setI_I s v, setI_getV s v, rfl, fun _ => rfl, rfl, ⟨rfl, setI_stackEntry s v⟩, ⟨rfl, rfl⟩,
    ⟨rfl, rfl, rfl, rfl, rfl⟩, rfl, rfl⟩

/-- A byte added to a word, as naturals modulo 2^16 (R281). -/
theorem word_add_zext16_eq (w : Word) (v : Byte) : w + zext16 v = BitVec.ofNat 16 ((w.toNat + v.toNat) % 65536) :=
  BitVec.eq_of_toNat_eq (by simp [zext16])

/-- Five times a byte does not wrap in a word (R282). -/
theorem zext16_mul_five_eq (v : Byte) : zext16 v * 5 = BitVec.ofNat 16 (5 * v.toNat) :=
  BitVec.eq_of_toNat_eq (by simp [zext16, Nat.mul_comm])

/-- Settles O48: each of the three is one write of I. -/
theorem indexRegisterResults : Obligations.IndexRegisterResults := by
  intro s x nnn
  refine ⟨or_nnn 0xA nnn, or_fixed_x 0xF x 0x1E, or_fixed_x 0xF x 0x29, onlySetsIndex_setI s _, ?_, ?_⟩
  · rw [← word_add_zext16_eq]
    exact onlySetsIndex_setI s _
  · rw [← zext16_mul_five_eq]
    exact onlySetsIndex_setI s _

/-! ## What the transfers share -/

/-- An instruction whose fault condition holds takes that fault (R312, R316). -/
theorem takesFault_of_raises {i : Instr} {s : State} {c : Cause} (h : Raises s i c) : TakesFault (exec i s) s c := by
  rw [exec_raises i s c h]
  exact takesFault_raise s c

/-- A write of memory changes nothing else (R15). -/
theorem setM_frame (s : State) (m : Memory) :
    SameRegs s (s.setM m) ∧ (s.setM m).pc = s.pc ∧ (s.setM m).I = s.I ∧ SameInterface s (s.setM m) ∧
      SameRest s (s.setM m) :=
  ⟨setM_getV s m, rfl, rfl, rfl, ⟨rfl, setM_stackEntry s m⟩, ⟨rfl, rfl⟩, ⟨rfl, rfl, rfl, rfl, rfl⟩, rfl, rfl⟩

/-- A run of writes stores the bytes of its list and no others (R73). -/
theorem storesBytes_writeAll (s : State) (base : Nat) {count : Nat} {vs : List Byte} {f : Nat → Byte}
    (hlen : vs.length = count) (hbytes : ∀ k (h : k < vs.length), vs[k] = f k) :
    StoresBytes base count f s (s.setM (Memory.writeAll s.M base vs)) := by
  subst hlen
  exact ⟨fun k hk => (read_writeAll_inside vs s.M base k hk).trans (hbytes k hk),
    read_writeAll_outside vs s.M base⟩

/-! ## The three digits -/

section Digits

/-- The state LD B leaves with I + 2 in memory (`exec_ldB_inRange`). -/
def bcdStored (s : State) (x : Nibble) : State :=
  s.setM (Memory.writeAll s.M s.I.toNat (bcdDigits (s.getV x)))

variable {s : State} {x : Nibble}

/-- LD B with I + 2 in memory (R283). -/
theorem exec_ldB_inRange (h : s.I.toNat + 2 < 4096) : exec (.ldB x) s = .next (bcdStored s x) :=
  checkRange_inRange (bcdStored · x) fun k hk => show s.I.toNat + k < 4096 by omega

/-- LD B stores hundreds, tens and units at I, I + 1 and I + 2, and nothing elsewhere (R283). -/
theorem read_bcdStored :
    (bcdStored s x).M.read s.I.toNat = BitVec.ofNat 8 ((s.getV x).toNat / 100) ∧
      (bcdStored s x).M.read (s.I.toNat + 1) = BitVec.ofNat 8 ((s.getV x).toNat / 10 % 10) ∧
      (bcdStored s x).M.read (s.I.toNat + 2) = BitVec.ofNat 8 ((s.getV x).toNat % 10) ∧
      SameMemoryBut s.I.toNat 3 s (bcdStored s x) := by
  have inside := read_writeAll_inside (bcdDigits (s.getV x)) s.M s.I.toNat
  exact ⟨inside 0 (by simp [bcdDigits]), inside 1 (by simp [bcdDigits]), inside 2 (by simp [bcdDigits]),
    read_writeAll_outside (bcdDigits (s.getV x)) s.M s.I.toNat⟩

end Digits

/-- Settles O49: the quotients and remainders by 100 and 10 are the digits of a byte, whose hundreds end at 2. -/
theorem bcdDigitsAreStored : Obligations.BcdDigitsAreStored := by
  intro s x
  refine ⟨or_fixed_x 0xF x 0x33, fun h => ?_, fun h => takesFault_of_raises ⟨2, by decide, h⟩⟩
  have hv : (s.getV x).toNat < 256 := (s.getV x).isLt
  obtain ⟨hundreds, tens, units, hothers⟩ := read_bcdStored (s := s) (x := x)
  exact ⟨bcdStored s x, _, _, _, exec_ldB_inRange h, by omega, by omega, by omega, by omega, hundreds, tens, units,
    hothers, setM_frame s _⟩

/-! ## Registers to memory and back -/

/-- Settles O50: the bytes written are those of V[0] to V[x], and only memory is written. -/
theorem registersAreStored : Obligations.RegistersAreStored := by
  intro s x
  refine ⟨or_fixed_x 0xF x 0x55, fun h => ?_, fun h => takesFault_of_raises ⟨x.toNat, Nat.lt_succ_self _, h⟩⟩
  exact ⟨stored s x, exec_ldMemVx_inRange h, storesBytes_writeAll s _ (regsTo_length s x) (regsTo_getElem s x),
    setM_frame s _⟩

/-- A load leaves the registers above V[x] alone (R285). -/
theorem getV_loaded_above {s : State} {x z : Nibble} (h : ¬ z.toNat ≤ x.toNat) : (loaded s x).getV z = s.getV z := by
  have hlen := readAll_length s.M s.I.toNat (x.toNat + 1)
  have hx := x.isLt
  rw [loaded, getV_setVsFrom _ _ _ _ (by omega), if_pos (Nat.zero_le _), List.getElem?_eq_none (by omega),
    Option.getD_none]

/-- Settles O51: the registers are as `getV_loaded` and `getV_loaded_above` say, and only the register file is written. -/
theorem registersAreLoaded : Obligations.RegistersAreLoaded := by
  intro s x
  refine ⟨or_fixed_x 0xF x 0x65, fun h => ?_, fun h => takesFault_of_raises ⟨x.toNat, Nat.lt_succ_self _, h⟩⟩
  refine ⟨loaded s x, exec_ldVxMem_inRange h, fun z hz => getV_loaded hz, fun z hz => getV_loaded_above hz, ?_⟩
  obtain ⟨V', hshape⟩ : ∃ V', loaded s x = { s with V := V' } := setVsFrom_shape _ s 0
  rw [hshape]
  exact ⟨rfl, rfl, fun _ => rfl, rfl, ⟨rfl, fun _ => rfl⟩, ⟨rfl, rfl⟩, ⟨rfl, rfl, rfl, rfl, rfl⟩, rfl, rfl⟩

end Sys2Proof.IndexMemoryProofs

namespace Sys2Proof.ExceptionProofs

open Sys2Proof.Machine Sys2Proof.Safety Sys2Proof.Laws Sys2Proof.CycleProofs

/-! # Faults (spec/60_exceptions.md)

Every faulting step leaves one and the same form of state, `faultTaken`: the three statements read off what it keeps and
what it records. -/

section FaultTaken

/-- The state a step leaves that takes fault `c` at the instruction at pc, with `w` for FAULT_OP (R316; tied to `step`
by `step_of_faultCondition` and `faulted_step`). -/
def faultTaken (s : State) (c : Cause) (w : Word) : State := (s.sampleKeys.takeFault c s.pc w).clearLatches

variable {s t : State} {c : Cause} {w : Word}

/-- A fault raised by a handler takes pc back over the advance, so that only the key sample is left of the cycle (R17,
R316). -/
theorem raise_handlerState (s : State) (w : Word) (c : Cause) :
    ((handlerState s w).raise c).clearLatches = faultTaken s c w := by
  rw [State.raise, State.pcI, pcI_handlerState]
  rfl

/-- Fault entry leaves the architectural state alone and emits nothing (R315). -/
theorem faultTaken_frame (s : State) (c : Cause) (w : Word) :
    SameRegs s (faultTaken s c w) ∧ (faultTaken s c w).I = s.I ∧ (faultTaken s c w).pc = s.pc ∧
      SameStack s (faultTaken s c w) ∧ SameTimers s (faultTaken s c w) ∧ SameMemory s (faultTaken s c w) ∧
      (faultTaken s c w).io.events = s.io.events :=
  ⟨fun _ => rfl, rfl, rfl, ⟨rfl, fun _ => rfl⟩, ⟨rfl, rfl⟩, fun _ => rfl, rfl⟩

/-- A step that fetched an instruction whose fault condition holds takes that fault, with the word recorded (R316). -/
theorem step_of_raises {i : Instr} (h : Fetches s w) (hd : decodeWord w = .ok i) (hr : Raises (handlerState s w) i c) :
    step s = .next (faultTaken s c w) := by
  rw [step_of_exec h hd, exec_raises i _ c hr, finish, endCycle_stopped _ (by simp), raise_handlerState]

/-- Under the condition of a fault the step takes it. FAULT_OP is 0 for FetchRange, where no word is fetched, and the
fetched word for every other fault (R316). -/
theorem step_of_faultCondition (hc : FaultCondition s c) :
    ∃ w, step s = .next (faultTaken s c w) ∧ (c = .fetchRange → w = 0) ∧ ∀ w', Fetches s w' → w = w' := by
  by_cases hf : c = .fetchRange
  · subst hf
    obtain ⟨hr, hend, hpc⟩ := hc
    refine ⟨0, step_fetchFault s hr hend hpc, fun _ => rfl, fun w' ⟨_, _, hlt, _⟩ => ?_⟩
    omega
  · obtain ⟨w, i, h, hd, hr⟩ := raises_of_faultCondition s c hc hf
    exact ⟨w, step_of_raises h hd hr, fun e => absurd e hf, fun w' => fetches_unique s w w' h⟩

/-- A step from Running to Faulted took a fault whose condition held: of the cases of a step only the failed fetch and a
handler's fault leave Faulted. -/
theorem faulted_step (hr : s.run = .running) (hs : step s = .next t) (ht : t.run = .faulted) :
    ∃ c w, FaultCondition s c ∧ t = faultTaken s c w := by
  cases step_next s t hs with
  | idle h => exact absurd hr h
  | halts h hend => simp at ht
  | fetchFault h hend hpc => exact ⟨.fetchRange, 0, ⟨h, hend, hpc⟩, rfl⟩
  | unimpl w e h hd => simp [endCycle_run, handlerState, hr] at ht
  | raised w i c h hd hraise =>
    exact ⟨c, w, faultCondition_of_raises s w i c h hd hraise, raise_handlerState s w c⟩
  | done w i u h hd hx hu hq hno => simp [endCycle_run, hu] at ht

end FaultTaken

/-- Settles O13: the state left is `faultTaken`, whose frame is all of the architectural state. -/
theorem faultsArePrecise : Obligations.FaultsArePrecise := by
  intro s t hr hs ht
  obtain ⟨c, w, -, rfl⟩ := faulted_step hr hs ht
  exact faultTaken_frame s c w

/-- Settles O14: a fault taken had its condition, and a condition that holds has its fault taken. -/
theorem faultsExactlyAsListed : Obligations.FaultsExactlyAsListed := by
  intro s t hr hs
  constructor
  · intro ht
    obtain ⟨c, _, hc, -⟩ := faulted_step hr hs ht
    exact ⟨c, hc⟩
  · rintro ⟨c, hc⟩
    obtain ⟨w, hw, -⟩ := step_of_faultCondition hc
    cases hs.symm.trans hw
    rfl

/-- Settles O15: the step leaves `faultTaken`, which records the cause, pc and the word, and keeps the rest. -/
theorem faultEntryRecords : Obligations.FaultEntryRecords := by
  intro s c hc
  obtain ⟨w, hs, hzero, hword⟩ := step_of_faultCondition hc
  obtain ⟨hregs, hI, hpc, hstack, htimers, hM, hevents⟩ := faultTaken_frame s c w
  exact ⟨faultTaken s c w, hs, rfl, hpc, rfl, hzero, hword, by cases c <;> rfl, htimers, hevents, hregs, hI, hstack,
    hM, rfl⟩

end Sys2Proof.ExceptionProofs

namespace Sys2Proof.ResetProofs

open Sys2Proof.Machine Sys2Proof.Laws

/-! # Reset (spec/70_reset_and_hazards.md) -/

/-- Settles O53: each value is the one `State.reset` writes in its field (R343). -/
theorem resetStateIsAsSpecified : Obligations.ResetStateIsAsSpecified :=
  ⟨rfl, rfl, rfl, rfl, rfl, rfl, rfl, rfl⟩

/-- Settles O55: the image does not fit, so the reset writes run and the fault registers (R341), and the Rejected state
it leaves is one of those in which a step is idle (R144). -/
theorem oversizedImageIsRejected : Obligations.OversizedImageIsRejected := by
  intro s p prog hlen
  rw [resetTo_oversized s p prog (Nat.not_lt.mpr hlen)]
  exact ⟨rfl, rfl, rfl, rfl, step_idle _ (by simp)⟩

end Sys2Proof.ResetProofs
